-- ==== Sys2Proof/Word.lean ====
section
/-! DEFINITION. The widths the spec gives its values (00_scope.md R5 and section 6). Every value is an
unsigned number of a stated width; there are no signed values. -/

namespace Sys2Proof

/-- One bit: X, and the bits a bit-step samples (10_state.md R13, 41_keystream_step.md R70). -/
abbrev Bit := BitVec 1

/-- The counter NACC, 3 bits (10_state.md R16). -/
abbrev Count := BitVec 3

/-- One byte: ACC and the cells of the buffer (10_state.md R15, 20_memory.md R30). -/
abbrev Byte := BitVec 8

/-- A shift register: T, U, V (10_state.md R10, R11, R12). -/
abbrev Reg16 := BitVec 16

/-- A command word, `cmd[1:0]` (30_encoding.md R50). -/
abbrev CommandWord := BitVec 2

end Sys2Proof
end

