-- ==== Sys2Proof/Syntax.lean ====
section
/-! DEFINITION. The command set: one constructor per row of spec/opcode_table.json (30_encoding.md R51). -/

namespace Sys2Proof

/-- A command of the block. Every command names its registers implicitly, and the one operand of any
command is `len_in` of INIT (30_encoding.md R50, R52). `len_in` is a natural number; that it fits AW bits is
`Instr.wf` (log entry 3). -/
inductive Instr where
  /-- HOLD: do nothing (40_control.md R65). -/
  | hold
  /-- INIT: start an invocation over a buffer of `lenIn` bytes (40_control.md R66). -/
  | init (lenIn : Nat)
  /-- STEP: one bit-step; at the eighth, apply one byte (41_keystream_step.md R80). -/
  | step
  /-- BYTE: eight STEPs (42_byte_apply.md R87). -/
  | byte
  deriving DecidableEq, Repr

end Sys2Proof
end

