-- ==== Sys2Proof/WellFormed.lean ====
section
/-! DEFINITION. Which commands a block of address width `aw` can be given (00_scope.md section 4,
30_encoding.md R52). -/

namespace Sys2Proof

/-- A width the spec allows: AW >= 1 (00_scope.md section 4, the parameter table). -/
def legalWidth (aw : Nat) : Bool :=
  decide (1 ≤ aw)

/-- A value that AW wires can carry: every value 0 to 2^AW - 1 is legal (30_encoding.md R52). -/
def fitsWidth (aw n : Nat) : Bool :=
  decide (n < 2 ^ aw)

/-- A command that can be presented to a block of address width `aw`. -/
def Instr.wf (aw : Nat) : Instr → Bool
  | .hold => legalWidth aw
  | .init lenIn => legalWidth aw && fitsWidth aw lenIn
  | .step => legalWidth aw
  | .byte => legalWidth aw

end Sys2Proof
end

