-- ==== Sys2Proof/Decode.lean ====
section
/-! DEFINITION. From a command word and its side-band operand to a command, and back (30_encoding.md). The
decoder is total: all four words are defined and none is illegal, reserved or a hint (R53). -/

namespace Sys2Proof

/-- The word of HOLD (30_encoding.md R51). -/
def holdWord : CommandWord := 0b00#2

/-- The word of INIT (30_encoding.md R51). -/
def initWord : CommandWord := 0b01#2

/-- The word of STEP (30_encoding.md R51). -/
def stepWord : CommandWord := 0b10#2

/-- The word of BYTE (30_encoding.md R51). -/
def byteWord : CommandWord := 0b11#2

/-- What the block does with a command word `cmd` and the value `lenIn` on the operand port. INIT copies the
operand unchanged; HOLD, STEP and BYTE ignore it (30_encoding.md R51, R52). The last case is the one word
left, 11. -/
def decode (cmd : CommandWord) (lenIn : Nat) : Instr :=
  if cmd = holdWord then .hold
  else if cmd = initWord then .init lenIn
  else if cmd = stepWord then .step
  else .byte

/-- The opcode of a command: all of its word (30_encoding.md R50, R51). -/
def opcode : Instr → CommandWord
  | .hold => holdWord
  | .init _ => initWord
  | .step => stepWord
  | .byte => byteWord

/-- The value the host puts beside the word. DESIGN CHOICE (log entry 8): 0 for the commands that ignore it
(30_encoding.md R52 gives it no effect). -/
def operand : Instr → Nat
  | .hold => 0
  | .init lenIn => lenIn
  | .step => 0
  | .byte => 0

/-- The word of a command and the value beside it (30_encoding.md R57). -/
def encode (i : Instr) : CommandWord × Nat :=
  (opcode i, operand i)

/-- The wires of a block of address width `aw`, as one number: `len_in` on the `aw` upper bits, `cmd` on bits
1 and 0. DESIGN CHOICE (log entry 7): the spec presents the operand beside the word and gives the two no
common numbering. -/
def encodeWires (aw : Nat) (i : Instr) : BitVec (aw + 2) :=
  BitVec.ofNat aw (operand i) ++ opcode i

/-- What a block of address width `aw` reads from its wires. -/
def decodeWires (aw : Nat) (w : BitVec (aw + 2)) : Instr :=
  decode (w.extractLsb' 0 2) (w.extractLsb' 2 aw).toNat

/-- The command word of an instruction numbered as spec/opcode_table.json numbers it: bits 1 and 0. -/
def tableWordCommand (w : Nat) : CommandWord :=
  BitVec.ofNat 2 w

/-- The operand that counts on from bit 2, up to `nbits` bits in all; every higher bit is 0. DESIGN CHOICE
(log entry 7). -/
def tableWordOperand (nbits w : Nat) : Nat :=
  w % 2 ^ nbits / 4

/-- The command the decoder reads from an instruction whose bits are `w`. Fewer than two bits are no command
(30_encoding.md R54); nothing else is refused (R53). -/
def decodeTableWord (nbits w : Nat) : Option Instr :=
  if nbits < 2 then none else some (decode (tableWordCommand w) (tableWordOperand nbits w))

/-- The same number, from a command. -/
def encodeTableWord (i : Instr) : Nat :=
  operand i * 4 + (opcode i).toNat

/-- The mnemonic of a command (30_encoding.md R51). -/
def mnemonic : Instr → String
  | .hold => "HOLD"
  | .init _ => "INIT"
  | .step => "STEP"
  | .byte => "BYTE"

/-- A command as a line of a listing; the value of `len_in` in decimal (30_encoding.md R55). -/
def listing : Instr → String
  | .hold => mnemonic .hold
  | .init lenIn => mnemonic (.init lenIn) ++ " " ++ toString lenIn
  | .step => mnemonic .step
  | .byte => mnemonic .byte

/-- `k * command` of a listing: the command repeated `k` times (30_encoding.md R55). -/
def repeated (k : Nat) (i : Instr) : List Instr :=
  List.replicate k i

end Sys2Proof
end

