-- ==== Sys2Proof/Config.lean ====
section
/-! DEFINITION. The seven wired constants of the block (10_state.md R14). The spec leaves no value free, so
there is no opaque constant here. The address width AW is no constant: it is an argument wherever it matters
(WellFormed.lean, Machine/AddressWidth.lean, Safety.lean; log entry 3). The literals are as the spec prints
them and could not be audited against a run (log entry 9, UNVERIFIED). -/

namespace Sys2Proof.Config

/-- T_RESET (10_state.md R14). -/
def tReset : Reg16 := 0x2953#16

/-- U_RESET (10_state.md R14). -/
def uReset : Reg16 := 0xD9C2#16

/-- V_RESET (10_state.md R14). -/
def vReset : Reg16 := 0x3FF1#16

/-- X_RESET (10_state.md R14). -/
def xReset : Bit := 1#1

/-- T_MASK (10_state.md R14, 41_keystream_step.md R76). -/
def tMask : Reg16 := 0xA740#16

/-- U_MASK (10_state.md R14, 41_keystream_step.md R75). -/
def uMask : Reg16 := 0xFB10#16

/-- V_MASK (10_state.md R14, 41_keystream_step.md R74). -/
def vMask : Reg16 := 0xB3D0#16

end Sys2Proof.Config
end

