-- ==== Sys2Proof/Machine/State.lean ====
section
/-! DEFINITION. The state of the block, the buffer it works on and the host's pending events; the reasons a
step can stop; the state after reset (10_state.md, 20_memory.md R30, 60_exceptions.md R100). -/

namespace Sys2Proof.Machine

/-- The four registers of the keystream generator as one value: what `bitstep` maps (41_keystream_step.md
R77). A view of State's registers, not a second home for them. -/
structure Generator where
  /-- T (10_state.md R10). -/
  t : Reg16
  /-- U (10_state.md R11). -/
  u : Reg16
  /-- V (10_state.md R12). -/
  v : Reg16
  /-- X (10_state.md R13). -/
  x : Bit
  deriving DecidableEq, Repr

/-- The bytes of the buffer's storage as (address, byte) pairs in one canonical form, `Memory.wf`: addresses
strictly rising, and no byte listed that equals what an unlisted address reads as (log entry 4). -/
abbrev Memory := List Host.Cell

/-- What the host does next: the events of 00_scope.md R6 and the host's own accesses between them
(20_memory.md R42, 10_state.md R22). Each is one step of the machine (log entry 1). -/
inductive HostEvent where
  /-- The reset event (70_reset_and_hazards.md R120). -/
  | reset
  /-- A command word on `cmd[1:0]` with a value on `len_in` (30_encoding.md R57). -/
  | command (cmd : CommandWord) (lenIn : Nat)
  /-- The reset event and a command presented together (60_exceptions.md R102). -/
  | resetWithCommand (cmd : CommandWord) (lenIn : Nat)
  /-- The host writes the byte `b` at address `a` of the storage (20_memory.md R42). -/
  | hostWrite (a : Nat) (b : Byte)
  /-- The host reads the byte at address `a`: `State.hostRead` is what it gets (20_memory.md R32, R42). -/
  | hostRead (a : Nat)
  /-- The host looks at the registers and DONE: `State.observe` is what it sees (10_state.md R22). -/
  | observe
  deriving DecidableEq, Repr

/-- The eight registers of 10_state.md R20, then the buffer's storage and the host's pending events, which
belong to the host. POS and LEN are naturals, which the spec allows (92_eei_decisions.md D9, log entry 3). -/
structure State where
  /-- T, the shift register that shifts on every bit-step (10_state.md R10). -/
  t : Reg16
  /-- U, the shift register that shifts when t0 = 0 (10_state.md R11). -/
  u : Reg16
  /-- V, the shift register that shifts when t0 = u0 (10_state.md R12). -/
  v : Reg16
  /-- X, carried from bit-step to bit-step and the keystream bit of each (10_state.md R13). -/
  x : Bit
  /-- ACC, the accumulator of keystream bits (10_state.md R15). -/
  acc : Byte
  /-- NACC, the bit-steps done since the last byte boundary (10_state.md R16). -/
  nacc : Count
  /-- POS, the index of the next byte to transform (10_state.md R17). -/
  pos : Nat
  /-- LEN, the length of the buffer of this invocation (10_state.md R18). -/
  len : Nat
  /-- The storage of the buffer B; B is its first LEN bytes (20_memory.md R30). -/
  buf : Memory
  /-- The model's own field: what the host does next, oldest first (log entry 1). -/
  events : List HostEvent
  deriving DecidableEq, Repr

/-- Why a step faults. Empty: the block raises no exception, and a model has no constructor for the
surrounding software's errors (60_exceptions.md R100, R110). -/
inductive Fault : Type
  deriving DecidableEq, Repr

/-- Why a step is refused. -/
inductive Refusal where
  /-- Raised by an arm of `exec` for a command without a meaning; safe. No arm raises it: all four commands
  have their meaning. -/
  | notModelled (mnemonic : String)
  deriving DecidableEq, Repr

/-- The state right after the reset event (10_state.md R23, 70_reset_and_hazards.md R120), with nothing listed
in the buffer's storage (log entry 4) and nothing pending (log entry 1). -/
def State.reset : State where
  t := Config.tReset
  u := Config.uReset
  v := Config.vReset
  x := Config.xReset
  acc := 0x00#8
  nacc := 0#3
  pos := 0
  len := 0
  buf := []
  events := []

end Sys2Proof.Machine
end

