-- ==== Sys2Proof/Machine/Ops.lean ====
section
/-! DEFINITION. The operations over the buffer's storage and over the registers that the meanings share.
There is no operation that takes or returns from an exception: the block has no trap mechanism
(60_exceptions.md R100, R103, R104). -/

namespace Sys2Proof.Machine

/-- What an address that is not listed reads as. DESIGN CHOICE 0x00 (log entry 4): the spec says only
"whatever the host left there" (10_state.md R23). -/
def Memory.unlisted : Byte := 0x00#8

/-- The byte at address `a` (20_memory.md R32). -/
def Memory.read : Memory → Nat → Byte
  | [], _ => Memory.unlisted
  | (a', b) :: m, a => if a = a' then b else Memory.read m a

/-- The listing with the byte `b` put before the cells `m`, or left out when it reads so anyway. -/
def Memory.put (a : Nat) (b : Byte) (m : Memory) : Memory :=
  if b = Memory.unlisted then m else (a, b) :: m

/-- The storage after the byte at address `a` becomes `b` (20_memory.md R32); keeps the canonical form. -/
def Memory.write : Memory → Nat → Byte → Memory
  | [], a, b => Memory.put a b []
  | (a', b') :: m, a, b =>
    if a < a' then Memory.put a b ((a', b') :: m)
    else if a = a' then Memory.put a b m
    else (a', b') :: Memory.write m a b

/-- Every listed address is above `lo` and they rise strictly; no listed byte is the unlisted one. -/
def Memory.risesFrom : Nat → Memory → Bool
  | _, [] => true
  | lo, (a, b) :: m => decide (lo ≤ a) && decide (b ≠ Memory.unlisted) && Memory.risesFrom (a + 1) m

/-- The canonical form: equal contents are equal lists. -/
def Memory.wf (m : Memory) : Bool :=
  Memory.risesFrom 0 m

/-- `MemRead(a, 1)`: the only form of a load, one byte wide (20_memory.md R31). -/
def State.memRead (s : State) (a : Nat) : Byte :=
  s.buf.read a

/-- `MemWrite(a, 1, b)`: the only form of a store, one byte wide (20_memory.md R31). -/
def State.memWrite (s : State) (a : Nat) (b : Byte) : State :=
  { s with buf := s.buf.write a b }

/-- The generator's four registers (10_state.md R10 to R13). -/
def State.gen (s : State) : Generator where
  t := s.t
  u := s.u
  v := s.v
  x := s.x

/-- The state with the generator's four registers written. -/
def State.setGen (s : State) (g : Generator) : State :=
  { s with t := g.t, u := g.u, v := g.v, x := g.x }

/-- The reset constants of the generator (10_state.md R14, R23). -/
def Generator.reset : Generator where
  t := Config.tReset
  u := Config.uReset
  v := Config.vReset
  x := Config.xReset

/-- What the reset event and INIT share: the constants into T, U, V, X, zero into ACC, NACC, POS, and `n` into
LEN. The buffer is not accessed (40_control.md R66, 70_reset_and_hazards.md R120, R121). -/
def State.startFresh (s : State) (n : Nat) : State :=
  { s.setGen Generator.reset with acc := 0x00#8, nacc := 0#3, pos := 0, len := n }

/-- The reset event: every register at its reset value (70_reset_and_hazards.md R120). -/
def State.resetEvent (s : State) : State :=
  s.startFresh 0

/-- The host writes a byte of its storage between two events; no register changes. The address need not lie
below LEN: the host may fill the buffer before the INIT (70_reset_and_hazards.md R122, log entry 5). -/
def State.hostWrite (s : State) (a : Nat) (b : Byte) : State :=
  s.memWrite a b

/-- What the host gets when it reads address `a` between two events; a read has no side effect
(20_memory.md R32, R42). -/
def State.hostRead (s : State) (a : Nat) : Byte :=
  s.memRead a

/-- The buffer B of this invocation, B[0] to B[LEN-1] (20_memory.md R30). -/
def State.bufferBytes (s : State) : List Byte :=
  (List.range s.len).map s.memRead

end Sys2Proof.Machine
end

