-- ==== Sys2Proof/Machine/Operands.lean ====
section
/-! DEFINITION. The operand forms: the one operand `len_in`, and the one addressing mode. -/

namespace Sys2Proof.Machine

/-- The value INIT latches into LEN: `len_in` unchanged, with no extension, scaling, shift or offset
(30_encoding.md R52). -/
def latchedLength (lenIn : Nat) : Nat := lenIn

/-- The address the applier presents: POS as it stands, with no base, index, offset or scaling
(42_byte_apply.md R85). -/
def State.appliedAddress (s : State) : Nat := s.pos

end Sys2Proof.Machine
end

