-- ==== Sys2Proof/Machine/Flags.lean ====
section
/-! DEFINITION. The one status flag, and what the host can observe (10_state.md R19, R22). There are no
condition codes. -/

namespace Sys2Proof.Machine

/-- DONE: `POS == LEN`, computed and never stored (10_state.md R19). -/
def State.done (s : State) : Bool :=
  s.pos == s.len

/-- What the host sees between two events: the eight registers and DONE (10_state.md R22). The names are the
observation and status outputs of 92_eei_decisions.md D16. -/
structure Observation where
  t_q : Reg16
  u_q : Reg16
  v_q : Reg16
  x_q : Bit
  acc_q : Byte
  nacc_q : Count
  pos_q : Nat
  len_q : Nat
  done : Bool
  deriving DecidableEq, Repr

/-- The observation of a state (10_state.md R22). -/
def State.observe (s : State) : Observation where
  t_q := s.t
  u_q := s.u
  v_q := s.v
  x_q := s.x
  acc_q := s.acc
  nacc_q := s.nacc
  pos_q := s.pos
  len_q := s.len
  done := s.done

end Sys2Proof.Machine
end

