-- ==== Sys2Proof/Machine/Generator.lean ====
section
/-! DEFINITION. The keystream generator: the parts of a bit-step and the bit-step as one function of the four
generator registers (41_keystream_step.md R70 to R77). -/

namespace Sys2Proof.Machine

/-- The five bits a bit-step samples, all from the registers as they are before it (41_keystream_step.md
R70). -/
structure Sampled where
  t0 : Bit
  t1 : Bit
  u0 : Bit
  u1 : Bit
  v0 : Bit
  deriving DecidableEq, Repr

/-- Bit `i` of a 16-bit register, as one bit (00_scope.md section 6). -/
def bitOf (r : Reg16) (i : Nat) : Bit :=
  r.extractLsb' i 1

/-- Sampling (41_keystream_step.md R70). -/
def Generator.sample (g : Generator) : Sampled where
  t0 := bitOf g.t 0
  t1 := bitOf g.t 1
  u0 := bitOf g.u 0
  u1 := bitOf g.u 1
  v0 := bitOf g.v 0

/-- The term d that a bit-step XORs into X (41_keystream_step.md R71, the reading of the spec's decision
D11). -/
def Sampled.delta (b : Sampled) : Bit :=
  (b.t1 ^^^ b.v0) ^^^ (b.u0 ||| b.u1) ^^^ ((b.t0 ^^^ b.u1 ^^^ b.v0) &&& (b.t0 ^^^ b.u0))

/-- enU: U shifts only when t0 = 0 (41_keystream_step.md R72). -/
def Sampled.enU (b : Sampled) : Bool :=
  b.t0 == 0#1

/-- enV: V shifts only when t0 = u0 (41_keystream_step.md R72). -/
def Sampled.enV (b : Sampled) : Bool :=
  b.t0 == b.u0

/-- One shift of a 16-bit register with feedback mask `mask`: logical right shift by one, then the mask XORed
in when the bit shifted out was 1 (41_keystream_step.md R73, the reading of the spec's decision D6). -/
def lfsr (r mask : Reg16) : Reg16 :=
  (r >>> 1) ^^^ (if bitOf r 0 = 1#1 then mask else 0x0000#16)

/-- The register before a shift, from the register after it (41_keystream_step.md R73, the second of its
consequences); right for a mask whose bit 15 is set. -/
def unLfsr (r' mask : Reg16) : Reg16 :=
  (r' ^^^ (if bitOf r' 15 = 1#1 then mask else 0x0000#16)).extractLsb' 0 15 ++ bitOf r' 15

/-- T's update (41_keystream_step.md R76). -/
def Generator.nextT (g : Generator) : Reg16 :=
  lfsr g.t Config.tMask

/-- U's update (41_keystream_step.md R75). -/
def Generator.nextU (g : Generator) : Reg16 :=
  if g.sample.enU then lfsr g.u Config.uMask else g.u

/-- V's update (41_keystream_step.md R74). -/
def Generator.nextV (g : Generator) : Reg16 :=
  if g.sample.enV then lfsr g.v Config.vMask else g.v

/-- X's update, the keystream bit (41_keystream_step.md R71). -/
def Generator.nextX (g : Generator) : Bit :=
  g.x ^^^ g.sample.delta

/-- The bit-step: all four results from the values before it (41_keystream_step.md R77). -/
def bitstep (g : Generator) : Generator where
  t := g.nextT
  u := g.nextU
  v := g.nextV
  x := g.nextX

/-- `k` bit-steps. -/
def bitsteps : Nat → Generator → Generator
  | 0, g => g
  | k + 1, g => bitstep (bitsteps k g)

end Sys2Proof.Machine
end

