-- ==== Sys2Proof/Machine/Applier.lean ====
section
/-! DEFINITION. The XOR applier: assembling the byte, counting, and the byte boundary (41_keystream_step.md
R78, R79; 42_byte_apply.md R85, R86). -/

namespace Sys2Proof.Machine

/-- The accumulator shifts left by one and takes the keystream bit in bit 0 (41_keystream_step.md R78). -/
def shiftIn (acc : Byte) (x : Bit) : Byte :=
  acc.extractLsb' 0 7 ++ x

/-- The bit-step under way is the eighth of its byte (41_keystream_step.md R79). -/
def State.atBoundary (s : State) : Bool :=
  s.nacc == 7#3

/-- The counter after one more bit-step (41_keystream_step.md R79). -/
def nextCount (n : Count) : Count :=
  if n = 7#3 then 0#3 else n + 1#3

/-- The read-XOR-write of one byte boundary, at POS, with the accumulator as it now stands
(42_byte_apply.md R85). -/
def State.xorByte (s : State) : State :=
  s.memWrite s.appliedAddress (s.memRead s.appliedAddress ^^^ s.acc)

/-- The advance, after the address has been used (42_byte_apply.md R86). -/
def State.advance (s : State) : State :=
  { s with pos := s.pos + 1 }

/-- The accumulator after `k` bit-steps of a generator that starts at `g`. -/
def accSteps : Nat → Generator → Byte → Byte
  | 0, _, acc => acc
  | k + 1, g, acc => shiftIn (accSteps k g acc) (bitsteps (k + 1) g).x

end Sys2Proof.Machine
end

