-- ==== Sys2Proof/Machine/KeystreamStep.lean ====
section
/-! DEFINITION. The command STEP (41_keystream_step.md R80, R81). -/

namespace Sys2Proof.Machine

/-- The part of STEP that every ungated bit-step does: the generator moves on, ACC takes the new X, NACC
counts (41_keystream_step.md R80). -/
def State.shiftBit (s : State) : State :=
  let g := bitstep s.gen
  { s.setGen g with acc := shiftIn s.acc g.x, nacc := nextCount s.nacc }

/-- STEP without its gate: a bit-step, and at the eighth the applier, which uses the accumulator after the
shift and the POS before the increment (41_keystream_step.md R80). -/
def State.ungatedStep (s : State) : State :=
  if s.atBoundary then s.shiftBit.xorByte.advance else s.shiftBit

/-- STEP: nothing when DONE, else the bit-step (41_keystream_step.md R80, R81). -/
def State.oneStep (s : State) : State :=
  if s.done then s else s.ungatedStep

/-- The meaning of STEP (41_keystream_step.md R80). -/
def execStep (s : State) : Host.Outcome State Fault Refusal :=
  .next s.oneStep

end Sys2Proof.Machine
end

