-- ==== Sys2Proof/Machine/ByteApply.lean ====
section
/-! DEFINITION. The command BYTE (42_byte_apply.md R87). -/

namespace Sys2Proof.Machine

/-- `k` STEPs in order, each with its own gate, each seeing the state the one before it left
(42_byte_apply.md R87). -/
def State.steps : Nat → State → State
  | 0, s => s
  | k + 1, s => State.steps k s.oneStep

/-- The meaning of BYTE: eight STEPs inside one event (42_byte_apply.md R87). -/
def execByte (s : State) : Host.Outcome State Fault Refusal :=
  .next (s.steps 8)

end Sys2Proof.Machine
end

