-- ==== Sys2Proof/Machine/Control.lean ====
section
/-! DEFINITION. The control commands HOLD and INIT (40_control.md). -/

namespace Sys2Proof.Machine

/-- HOLD: no read, no write (40_control.md R65). -/
def execHold (s : State) : Host.Outcome State Fault Refusal :=
  .next s

/-- INIT: start an invocation from fresh state (40_control.md R66). -/
def execInit (lenIn : Nat) (s : State) : Host.Outcome State Fault Refusal :=
  .next (s.startFresh (latchedLength lenIn))

end Sys2Proof.Machine
end

