-- ==== Sys2Proof/Machine/Dispatch.lean ====
section
/-! DEFINITION. One arm per command (30_encoding.md R51). -/

namespace Sys2Proof.Machine

def exec (i : Instr) (s : State) : Host.Outcome State Fault Refusal :=
  match i with
  | .hold => Sys2Proof.Machine.execHold s
  | .init lenIn => Sys2Proof.Machine.execInit lenIn s
  | .step => Sys2Proof.Machine.execStep s
  | .byte => Sys2Proof.Machine.execByte s

end Sys2Proof.Machine
end

