-- ==== Sys2Proof/Machine/Events.lean ====
section
/-! DEFINITION. What one host event does (00_scope.md R6). -/

namespace Sys2Proof.Machine

/-- The event that presents a command (30_encoding.md R57). -/
def HostEvent.present (i : Instr) : HostEvent :=
  .command (encode i).1 (encode i).2

/-- One event, atomic (00_scope.md R6). Reset presented together with a command wins, and the command is
discarded (60_exceptions.md R102). The host's reads and observations have no effect (20_memory.md R32,
10_state.md R22). -/
def State.runEvent (e : HostEvent) (s : State) : Host.Outcome State Fault Refusal :=
  match e with
  | .reset => .next s.resetEvent
  | .command cmd lenIn => exec (decode cmd lenIn) s
  | .resetWithCommand _ _ => .next s.resetEvent
  | .hostWrite a b => .next (s.hostWrite a b)
  | .hostRead _ => .next s
  | .observe => .next s

/-- The next event in the host's order, with the later ones still pending (20_memory.md R40). With none
pending nothing happens (DESIGN CHOICE, log entry 2). -/
def State.takeEvent (s : State) : Host.Outcome State Fault Refusal :=
  match s.events with
  | [] => .next s
  | e :: es => State.runEvent e { s with events := es }

/-- The state in which the host presents the command `cmd` with `lenIn` next, before all that was pending. -/
def State.presentNext (s : State) (cmd : CommandWord) (lenIn : Nat) : State :=
  { s with events := .command cmd lenIn :: s.events }

end Sys2Proof.Machine
end

