-- ==== Sys2Proof/Machine/Step.lean ====
section
/-! DEFINITION. One step of the machine: one host event (00_scope.md R6). -/

namespace Sys2Proof.Machine

/-- One step. The block fetches nothing: the host presents each command (30_encoding.md R57). -/
def step (s : State) : Host.Outcome State Fault Refusal :=
  s.takeEvent

/-- `s` with the instruction numbered `w` presented next on the command port (log entry 7). -/
def State.withFetchWord (s : State) (nbits w : Nat) : State :=
  s.presentNext (tableWordCommand w) (tableWordOperand nbits w)

end Sys2Proof.Machine
end

