-- ==== Sys2Proof/Machine/Keystream.lean ====
section
/-! DEFINITION. The keystream as a function of position, the whole-buffer transform and the stream view
(42_byte_apply.md R88, R89, R93). No command calls these: the rules compare the block with them. -/

namespace Sys2Proof.Machine

/-- G(k): the generator's orbit from the reset constants (42_byte_apply.md R89). -/
def orbit (k : Nat) : Generator :=
  bitsteps k Generator.reset

/-- KSB(k): keystream bit number k, the X of G(k+1) (42_byte_apply.md R89). -/
def ksBit (k : Nat) : Bit :=
  (orbit (k + 1)).x

/-- KS(i): keystream byte number i, its first bit in bit 7 (42_byte_apply.md R89). -/
def ksByte (i : Nat) : Byte :=
  ksBit (8 * i) ++ ksBit (8 * i + 1) ++ ksBit (8 * i + 2) ++ ksBit (8 * i + 3) ++
    ksBit (8 * i + 4) ++ ksBit (8 * i + 5) ++ ksBit (8 * i + 6) ++ ksBit (8 * i + 7)

/-- The bytes `bs` XORed with the keystream from byte number `i` on. -/
def xorFrom : Nat → List Byte → List Byte
  | _, [] => []
  | i, b :: bs => (b ^^^ ksByte i) :: xorFrom (i + 1) bs

/-- `apply(b)`: the whole-buffer transform (42_byte_apply.md R88). -/
def applyBytes (bs : List Byte) : List Byte :=
  xorFrom 0 bs

/-- The block seen as a stream: one data byte in and one out per BYTE, with the generator at `g`
(42_byte_apply.md R93). -/
def streamBytes : Generator → List Byte → List Byte
  | _, [] => []
  | g, din :: rest => (din ^^^ accSteps 8 g 0x00#8) :: streamBytes (bitsteps 8 g) rest

end Sys2Proof.Machine
end

