-- ==== Sys2Proof/Machine/Invocation.lean ====
section
/-! DEFINITION. Command sequences and the pseudo-instruction APPLY (30_encoding.md R56, R57). -/

namespace Sys2Proof.Machine

/-- The commands `is` issued one after the other, stopping where one does not answer a next state. -/
def execAll : List Instr → State → Host.Outcome State Fault Refusal
  | [], s => .next s
  | i :: is, s =>
    match exec i s with
    | .next s' => execAll is s'
    | .fault r => .fault r
    | .refused r => .refused r

/-- `APPLY n`: INIT n, then n BYTEs (30_encoding.md R56). -/
def applyCommands (n : Nat) : List Instr :=
  .init n :: repeated n .byte

/-- A command that keeps the invocation: HOLD, STEP or BYTE. Only INIT starts one (40_control.md R66). -/
def keepsInvocation : Instr → Bool
  | .hold => true
  | .init _ => false
  | .step => true
  | .byte => true

end Sys2Proof.Machine
end

