-- ==== Sys2Proof/Machine/AddressWidth.lean ====
section
/-! DEFINITION. The block with an address width of `aw` bits (00_scope.md section 4, 92_eei_decisions.md D9):
POS and LEN are `aw`-bit registers and POS + 1 is taken modulo 2^aw. The machine of Step.lean has natural
numbers there; the statements compare the two (log entry 3). -/

namespace Sys2Proof.Machine

/-- The eight registers at address width `aw`, and the buffer's storage (10_state.md R20, R30). -/
structure NarrowState (aw : Nat) where
  t : Reg16
  u : Reg16
  v : Reg16
  x : Bit
  acc : Byte
  nacc : Count
  pos : BitVec aw
  len : BitVec aw
  buf : Memory
  deriving DecidableEq, Repr

/-- The same state with natural numbers for POS and LEN, and the host's pending events. -/
def NarrowState.widen {aw : Nat} (s : NarrowState aw) (es : List HostEvent) : State where
  t := s.t
  u := s.u
  v := s.v
  x := s.x
  acc := s.acc
  nacc := s.nacc
  pos := s.pos.toNat
  len := s.len.toNat
  buf := s.buf
  events := es

/-- INIT at width `aw` (40_control.md R66). -/
def NarrowState.startFresh {aw : Nat} (s : NarrowState aw) (lenIn : BitVec aw) : NarrowState aw :=
  { s with t := 0x2953#16, u := 0xD9C2#16, v := 0x3FF1#16, x := 1#1, acc := 0x00#8, nacc := 0#3,
           pos := 0#aw, len := lenIn }

/-- STEP at width `aw`, line by line as 41_keystream_step.md R80 writes it. -/
def NarrowState.oneStep {aw : Nat} (s : NarrowState aw) : NarrowState aw :=
  if s.pos = s.len then s
  else
    let g := bitstep ⟨s.t, s.u, s.v, s.x⟩
    let acc' := shiftIn s.acc g.x
    let s' := { s with t := g.t, u := g.u, v := g.v, x := g.x, acc := acc' }
    if s.nacc = 7#3 then
      { s' with buf := s.buf.write s.pos.toNat (s.buf.read s.pos.toNat ^^^ acc'),
                pos := s.pos + 1#aw, nacc := 0#3 }
    else { s' with nacc := s.nacc + 1#3 }

/-- `k` STEPs at width `aw` (42_byte_apply.md R87). -/
def NarrowState.steps {aw : Nat} : Nat → NarrowState aw → NarrowState aw
  | 0, s => s
  | k + 1, s => NarrowState.steps k s.oneStep

/-- One command at width `aw`: the word and the value on the `aw` wires of `len_in` (30_encoding.md R51,
R52). -/
def NarrowState.command {aw : Nat} (cmd : CommandWord) (lenIn : BitVec aw) (s : NarrowState aw) :
    NarrowState aw :=
  if cmd = 0b00#2 then s
  else if cmd = 0b01#2 then s.startFresh lenIn
  else if cmd = 0b10#2 then s.oneStep
  else s.steps 8

end Sys2Proof.Machine
end

