-- ==== Sys2Proof/Machine/Bus.lean ====
section
/-! DEFINITION. The accesses the block makes on the buffer port (20_memory.md R30, R31; the port is `mem_addr`,
`mem_rdata`, `mem_wdata`, `mem_we` of 92_eei_decisions.md D16). State keeps no record of them; this is the
trace that the rules about accesses speak of. -/

namespace Sys2Proof.Machine

/-- One access, one byte wide (20_memory.md R31). -/
inductive Access where
  /-- The block reads the byte `b` at address `a`. -/
  | read (a : Nat) (b : Byte)
  /-- The block writes the byte `b` at address `a`. -/
  | write (a : Nat) (b : Byte)
  deriving DecidableEq, Repr

/-- The address of an access. -/
def Access.address : Access → Nat
  | .read a _ => a
  | .write a _ => a

/-- The accesses of one STEP: at a byte boundary one read and then one write at the same address, else none
(20_memory.md R31, 42_byte_apply.md R85, 41_keystream_step.md R81). -/
def State.stepAccesses (s : State) : List Access :=
  if s.done then []
  else if s.atBoundary then
    [.read s.appliedAddress (s.memRead s.appliedAddress),
     .write s.appliedAddress (s.memRead s.appliedAddress ^^^ s.shiftBit.acc)]
  else []

/-- The accesses of `k` STEPs. -/
def State.stepsAccesses : Nat → State → List Access
  | 0, _ => []
  | k + 1, s => s.stepAccesses ++ State.stepsAccesses k s.oneStep

/-- The accesses of one command (20_memory.md R30: HOLD and INIT make none). -/
def accesses (i : Instr) (s : State) : List Access :=
  match i with
  | .hold => []
  | .init _ => []
  | .step => s.stepAccesses
  | .byte => s.stepsAccesses 8

/-- The accesses of a command sequence. -/
def accessesAll : List Instr → State → List Access
  | [], _ => []
  | i :: is, s =>
    accesses i s ++
      match exec i s with
      | .next s' => accessesAll is s'
      | .fault _ => []
      | .refused _ => []

/-- The storage after an access: a read changes nothing (20_memory.md R32). -/
def Access.on (m : Memory) : Access → Memory
  | .read _ _ => m
  | .write a b => m.write a b

end Sys2Proof.Machine
end

