-- ==== Sys2Proof/Safety.lean ====
section
/-! DEFINITION. What holds of every state a run from reset can reach, and what a safe step is. -/

namespace Sys2Proof.Machine

/-- n = 8 * POS + NACC: the ungated bit-steps since the last INIT or reset (42_byte_apply.md R92). -/
def State.bitCount (s : State) : Nat :=
  8 * s.pos + s.nacc.toNat

/-- POS lies in 0 .. LEN, and at LEN no byte is partly assembled (10_state.md R17, 42_byte_apply.md R92). -/
structure State.InRange (s : State) : Prop where
  posLeLen : s.pos ≤ s.len
  doneWhole : s.pos = s.len → s.nacc = 0#3

/-- Bit j of ACC is the keystream bit j bit-steps back, or 0 where there were fewer (42_byte_apply.md R92). -/
def State.AccIsRecent (s : State) : Prop :=
  ∀ j : Nat, j < 8 →
    s.acc.extractLsb' j 1 = if j < s.bitCount then ksBit (s.bitCount - 1 - j) else 0#1

/-- The invariant that ties state to position (42_byte_apply.md R92), with the canonical form of the storage
(log entry 4). -/
structure State.Inv (s : State) : Prop where
  range : s.InRange
  genOnOrbit : s.gen = orbit s.bitCount
  accRecent : s.AccIsRecent
  bufCanonical : s.buf.wf = true

/-- POS and LEN fit `aw` bits (10_state.md R17, R18). -/
structure State.Fits (aw : Nat) (s : State) : Prop where
  posLeLen : s.pos ≤ s.len
  lenFits : s.len < 2 ^ aw

/-- The operand of an event fits `aw` wires (30_encoding.md R52). -/
def HostEvent.fits (aw : Nat) : HostEvent → Bool
  | .reset => true
  | .command cmd lenIn => (decode cmd lenIn).wf aw
  | .resetWithCommand _ _ => true
  | .hostWrite _ _ => true
  | .hostRead _ => true
  | .observe => true

/-- An event after which LEN may differ and POS may be lower: reset, alone or with a command, or INIT
(10_state.md R18, 42_byte_apply.md R92). -/
def HostEvent.restarts : HostEvent → Bool
  | .reset => true
  | .command cmd _ => cmd == initWord
  | .resetWithCommand _ _ => true
  | .hostWrite _ _ => false
  | .hostRead _ => false
  | .observe => false

/-- A safe step: it answers a next state. The block has no other outcome (42_byte_apply.md R91). -/
def Safe (o : Host.Outcome State Fault Refusal) : Prop :=
  ∃ s', o = .next s'

/-- `k` steps of the machine. -/
def run (k : Nat) (s : State) : Host.Outcome State Fault Refusal :=
  Host.Core.run Sys2Proof.core k s

/-- The registers of two states agree (the eight of 10_state.md R20). -/
def State.SameRegisters (s s' : State) : Prop :=
  s.observe = s'.observe

end Sys2Proof.Machine
end

