-- ==== Sys2Proof/Certificates/Slice0/Obligations.lean ====
section
/-! DEFINITION. The statements. Each docstring names the rule of spec/ it formalises. -/

open Sys2Proof Sys2Proof.Machine

/-! ## Reset and the control commands -/

/-- The reset event puts every register at its reset value whatever the state was, does not access the buffer,
and leaves DONE = 1, so STEP and BYTE do nothing then (70_reset_and_hazards.md R120; ACC, NACC, POS and LEN by
the spec's decision D4). -/
def Obligations.ResetEventPutsEveryRegisterAtItsResetValue : Prop :=
  ∀ (s : State) (es : List HostEvent), s.events = .reset :: es →
    ∃ t : State, step s = .next t ∧
      t = { t := 0x2953#16, u := 0xD9C2#16, v := 0x3FF1#16, x := 1#1, acc := 0x00#8, nacc := 0#3,
            pos := 0, len := 0, buf := s.buf, events := es } ∧
      t.done = true ∧ exec .step t = .next t ∧ exec .byte t = .next t

/-- The state after reset holds the values of 10_state.md R23 and DONE = 1 (ACC, NACC, POS and LEN by the
spec's decision D4). That nothing is listed in the storage and nothing is pending is the model's choice, log
entries 4 and 1. -/
def Obligations.ResetStateHoldsTheTableOfResetValues : Prop :=
  State.reset.t = 0x2953#16 ∧ State.reset.u = 0xD9C2#16 ∧ State.reset.v = 0x3FF1#16 ∧
  State.reset.x = 1#1 ∧ State.reset.acc = 0x00#8 ∧ State.reset.nacc = 0#3 ∧ State.reset.pos = 0 ∧
  State.reset.len = 0 ∧ State.reset.done = true ∧ State.reset.buf = [] ∧ State.reset.events = []

/-- HOLD reads and writes nothing, and completes in every state (40_control.md R65). -/
def Obligations.HoldChangesNothing : Prop :=
  ∀ s : State, exec .hold s = .next s ∧ accesses .hold s = []

/-- Any number of HOLDs anywhere in a command sequence leaves the final state unchanged: taking them out
changes nothing (40_control.md R65, a corner case the spec derives). -/
def Obligations.HoldsMayBeTakenOut : Prop :=
  ∀ (is : List Instr) (s : State), execAll is s = execAll (is.filter (fun i => i != .hold)) s

/-- INIT writes all eight registers, accesses no buffer byte, makes DONE equal to `len_in == 0`, and completes
in every state (40_control.md R66; the spec's decisions D4, D7, D8, D18). -/
def Obligations.InitStartsFromFreshState : Prop :=
  ∀ (lenIn : Nat) (s : State),
    ∃ t : State, exec (.init lenIn) s = .next t ∧
      t = { t := 0x2953#16, u := 0xD9C2#16, v := 0x3FF1#16, x := 1#1, acc := 0x00#8, nacc := 0#3,
            pos := 0, len := lenIn, buf := s.buf, events := s.events } ∧
      t.done = (lenIn == 0) ∧ accesses (.init lenIn) s = []

/-- INIT does not depend on the registers before it, and of two INITs in a row the second alone counts
(40_control.md R66, corner cases the spec derives). -/
def Obligations.InitForgetsTheRegistersBefore : Prop :=
  (∀ (n : Nat) (s s' : State), s.buf = s'.buf → s.events = s'.events →
    exec (.init n) s = exec (.init n) s') ∧
  (∀ (m n : Nat) (s : State), execAll [.init m, .init n] s = exec (.init n) s)

/-- The reset event equals `INIT 0`, as a command and as an event (70_reset_and_hazards.md R121). -/
def Obligations.ResetEventEqualsInitZero : Prop :=
  (∀ s : State, exec (.init 0) s = .next s.resetEvent) ∧
  (∀ (s : State) (es : List HostEvent),
    step { s with events := .reset :: es } = step { s with events := HostEvent.present (.init 0) :: es })

/-! ## Encoding -/

/-- The four values of `cmd` select the four commands, INIT with `len_in` unchanged (30_encoding.md R51,
R52). -/
def Obligations.EachWordSelectsItsCommand : Prop :=
  ∀ lenIn : Nat, decode 0b00#2 lenIn = .hold ∧ decode 0b01#2 lenIn = .init lenIn ∧
    decode 0b10#2 lenIn = .step ∧ decode 0b11#2 lenIn = .byte

/-- Every word is a command of that word and no two words share one; `len_in` matters to INIT alone
(30_encoding.md R50, R52, R53). -/
def Obligations.DecodingKeepsTheCommandWord : Prop :=
  ∀ (cmd : CommandWord) (n m : Nat), opcode (decode cmd n) = cmd ∧
    (cmd = initWord → operand (decode cmd n) = n) ∧
    (cmd ≠ initWord → decode cmd n = decode cmd m)

/-- Decoding what a command is encoded as gives the command back: on the command port; on the wires of a block
of any address width the command is well formed for; and in the numbering of the opcode table, wherever the
bits suffice. The numberings are the model's choice, log entries 7 and 8. -/
def Obligations.DecodeOfEncodeIsTheCommand : Prop :=
  (∀ i : Instr, decode (encode i).1 (encode i).2 = i) ∧
  (∀ (aw : Nat) (i : Instr), i.wf aw = true → decodeWires aw (encodeWires aw i) = i) ∧
  (∀ (nbits : Nat) (i : Instr), 2 ≤ nbits → encodeTableWord i < 2 ^ nbits →
    decodeTableWord nbits (encodeTableWord i) = some i)

/-- The other direction, at every address width: a command decoded from the wires is well formed, and encoding
it gives the wires back for INIT, and for the other words the wires with zeros where `len_in` is ignored (the
zeros are the model's choice, log entry 8). -/
def Obligations.EncodeOfDecodeIsTheWires : Prop :=
  ∀ (aw : Nat) (w : BitVec (aw + 2)), 1 ≤ aw →
    (decodeWires aw w).wf aw = true ∧
    (w.extractLsb' 0 2 = initWord → encodeWires aw (decodeWires aw w) = w) ∧
    (w.extractLsb' 0 2 ≠ initWord → encodeWires aw (decodeWires aw w) = 0#aw ++ w.extractLsb' 0 2)

/-- Words written out from the table of 30_encoding.md R51 decode to their commands, and placed where the machine
takes its next one they run as those commands in the very next step (the numbering is log entry 7's). A sanity
statement. -/
def Obligations.WrittenWordsDecode : Prop :=
  decodeTableWord 8 0b00000000 = some .hold ∧ decodeTableWord 8 0b00000001 = some (.init 0) ∧
  decodeTableWord 8 0b00000010 = some .step ∧ decodeTableWord 8 0b00000011 = some .byte ∧
  decodeTableWord 8 0b00100001 = some (.init 8) ∧ decodeTableWord 1 0b1 = none ∧
  ∀ s : State,
    step (s.withFetchWord 8 0b00000000) = exec .hold s ∧ step (s.withFetchWord 8 0b00000001) = exec (.init 0) s ∧
    step (s.withFetchWord 8 0b00000010) = exec .step s ∧ step (s.withFetchWord 8 0b00000011) = exec .byte s ∧
    step (s.withFetchWord 8 0b00100001) = exec (.init 8) s

/-! ## Steps and events -/

/-- When the host presents a command next, a step is `exec` of the command decoded, with the later events still
pending (30_encoding.md R57); and `withFetchWord` makes the decoded instruction run in the very next step
(log entry 7). -/
def Obligations.StepRunsThePresentedCommand : Prop :=
  (∀ (s : State) (cmd : CommandWord) (lenIn : Nat) (es : List HostEvent),
    s.events = .command cmd lenIn :: es → step s = exec (decode cmd lenIn) { s with events := es }) ∧
  (∀ (s : State) (i : Instr) (es : List HostEvent),
    s.events = HostEvent.present i :: es → step s = exec i { s with events := es }) ∧
  (∀ (s : State) (nbits w : Nat) (i : Instr),
    decodeTableWord nbits w = some i → step (s.withFetchWord nbits w) = exec i s)

/-- Commands pending one after the other run as the sequence of those commands, whatever is pending behind them
(20_memory.md R40, 30_encoding.md R57). -/
def Obligations.PendingCommandsRunInOrder : Prop :=
  ∀ (is : List Instr) (es : List HostEvent) (s : State),
    run is.length { s with events := is.map HostEvent.present ++ es } = execAll is { s with events := es }

/-- Reset presented together with a command: reset wins and the command is discarded (60_exceptions.md R102). -/
def Obligations.ResetWinsOverACommand : Prop :=
  ∀ (s : State) (cmd : CommandWord) (lenIn : Nat) (es : List HostEvent),
    step { s with events := .resetWithCommand cmd lenIn :: es } = step { s with events := .reset :: es }

/-- Between two events the host may write a byte, read one and observe the registers: the write changes that
byte and no register, the read gives the byte last written, the reads change nothing (20_memory.md R32, R42;
10_state.md R22). -/
def Obligations.HostAccessesTouchOnlyTheByteWritten : Prop :=
  (∀ (s : State) (a : Nat) (b : Byte) (es : List HostEvent), s.buf.wf = true →
    s.events = .hostWrite a b :: es →
    ∃ t : State, step s = .next t ∧ t.observe = s.observe ∧ t.events = es ∧ t.buf.wf = true ∧
      t.hostRead a = b ∧ ∀ c : Nat, c ≠ a → t.hostRead c = s.hostRead c) ∧
  (∀ (s : State) (a : Nat) (es : List HostEvent), s.events = .hostRead a :: es →
    step s = .next { s with events := es }) ∧
  (∀ (s : State) (es : List HostEvent), s.events = .observe :: es → step s = .next { s with events := es })

/-- With nothing pending a step changes nothing. The model's choice, log entry 2. -/
def Obligations.NothingPendingNothingHappens : Prop :=
  ∀ s : State, s.events = [] → step s = .next s

/-- Every command completes in every state, and so does the step of every event: the block has no error
conditions (42_byte_apply.md R91, 60_exceptions.md R100). -/
def Obligations.EveryCommandAndEveryEventCompletes : Prop :=
  (∀ (i : Instr) (s : State), Safe (exec i s)) ∧
  (∀ (s : State) (e : HostEvent) (es : List HostEvent), s.events = e :: es → Safe (step s))

/-- The observation is the whole state of the block: two states the host cannot tell apart, with the same
storage and the same pending events, are the same state (10_state.md R20, R22, R26); and the DONE it shows is
`POS == LEN` (R19). -/
def Obligations.ObservationIsTheWholeBlock : Prop :=
  (∀ s s' : State, s.observe = s'.observe → s.buf = s'.buf → s.events = s'.events → s = s') ∧
  (∀ s : State, s.observe.done = (s.pos == s.len))

/-! ## The bit-step -/

/-- The formula of d; its table, row by row, entry 16 t0 + 8 t1 + 4 u0 + 2 u1 + v0; d flips with t1; and X' is
X XOR d of the sampled bits (41_keystream_step.md R71; the reading is the spec's decision D11, the table the spec
derives). -/
def Obligations.KeystreamBitFollowsTheFormulaAndTheTable : Prop :=
  (∀ t0 t1 u0 u1 v0 : Bit,
    Sampled.delta ⟨t0, t1, u0, u1, v0⟩ =
      (t1 ^^^ v0) ^^^ (u0 ||| u1) ^^^ ((t0 ^^^ u1 ^^^ v0) &&& (t0 ^^^ u0)) ∧
    Sampled.delta ⟨t0, ~~~t1, u0, u1, v0⟩ = ~~~Sampled.delta ⟨t0, t1, u0, u1, v0⟩ ∧
    ([0, 1, 1, 0, 1, 1, 0, 0, 1, 0, 0, 1, 0, 0, 1, 1,
      1, 1, 1, 1, 1, 0, 1, 0, 0, 0, 0, 0, 0, 1, 0, 1] : List Nat).getD
      (16 * t0.toNat + 8 * t1.toNat + 4 * u0.toNat + 2 * u1.toNat + v0.toNat) 2 =
    (Sampled.delta ⟨t0, t1, u0, u1, v0⟩).toNat) ∧
  (∀ g : Generator, (bitstep g).x = g.x ^^^ Sampled.delta
    ⟨g.t.extractLsb' 0 1, g.t.extractLsb' 1 1, g.u.extractLsb' 0 1, g.u.extractLsb' 1 1, g.v.extractLsb' 0 1⟩)

/-- No bit of T, U or V but the five sampled ones influences the keystream bit or the shift decisions
(41_keystream_step.md R70, R72): flipping any other bits leaves d as it was, and U and V hold or shift as
before. -/
def Obligations.OnlyTheSampledBitsDecide : Prop :=
  ∀ g h : Generator,
    g.t.getLsbD 0 = h.t.getLsbD 0 → g.t.getLsbD 1 = h.t.getLsbD 1 → g.u.getLsbD 0 = h.u.getLsbD 0 →
    g.u.getLsbD 1 = h.u.getLsbD 1 → g.v.getLsbD 0 = h.v.getLsbD 0 →
    (bitstep g).x ^^^ g.x = (bitstep h).x ^^^ h.x ∧
    (((bitstep g).u = g.u ∧ (bitstep h).u = h.u) ∨
      ((bitstep g).u = lfsr g.u 0xFB10#16 ∧ (bitstep h).u = lfsr h.u 0xFB10#16)) ∧
    (((bitstep g).v = g.v ∧ (bitstep h).v = h.v) ∨
      ((bitstep g).v = lfsr g.v 0xB3D0#16 ∧ (bitstep h).v = lfsr h.v 0xB3D0#16))

/-- T shifts on every bit-step, U only when t0 = 0, V only when t0 = u0; a register that holds keeps all its
bits (41_keystream_step.md R72, R74, R75, R76). -/
def Obligations.EachRegisterShiftsWhenItsRuleSays : Prop :=
  ∀ g : Generator,
    (bitstep g).t = lfsr g.t 0xA740#16 ∧
    (g.t.getLsbD 0 = false → (bitstep g).u = lfsr g.u 0xFB10#16) ∧
    (g.t.getLsbD 0 = true → (bitstep g).u = g.u) ∧
    (g.t.getLsbD 0 = g.u.getLsbD 0 → (bitstep g).v = lfsr g.v 0xB3D0#16) ∧
    (g.t.getLsbD 0 ≠ g.u.getLsbD 0 → (bitstep g).v = g.v)

/-- The shift bit by bit: bit i of the result is bit i+1 of the register, 0 entering bit 15, with the mask's bit
XORed in when the bit shifted out was 1 (41_keystream_step.md R73; the fill bit is the spec's decision D6). -/
def Obligations.ShiftMovesEveryBitDownAndXorsTheMask : Prop :=
  ∀ (r m : Reg16) (i : Nat), i < 16 →
    (lfsr r m).getLsbD i = ((decide (i < 15) && r.getLsbD (i + 1)) ^^ (r.getLsbD 0 && m.getLsbD i))

/-- For a mask with bit 15 set and bit 0 clear, as the three are: bit 15 of the result is the bit shifted out,
the shift is a bijection with the inverse R73 gives, 0 is the one value that goes to 0, and the values R73 lists
(41_keystream_step.md R73, consequences the spec derives). -/
def Obligations.ShiftIsABijectionForTheMasks : Prop :=
  (∀ m : Reg16, m.getLsbD 15 = true → m.getLsbD 0 = false →
    (∀ r : Reg16, (lfsr r m).getLsbD 15 = r.getLsbD 0) ∧
    (∀ r : Reg16, unLfsr (lfsr r m) m = r) ∧
    (∀ r : Reg16, lfsr (unLfsr r m) m = r) ∧
    (∀ r : Reg16, lfsr r m = 0x0000#16 ↔ r = 0x0000#16) ∧
    lfsr 0x0001#16 m = m ∧ lfsr 0x8000#16 m = 0x4000#16 ∧ lfsr 0xFFFF#16 m = 0x7FFF#16 ^^^ m) ∧
  (Config.tMask.getLsbD 15 = true ∧ Config.tMask.getLsbD 0 = false ∧
    Config.uMask.getLsbD 15 = true ∧ Config.uMask.getLsbD 0 = false ∧
    Config.vMask.getLsbD 15 = true ∧ Config.vMask.getLsbD 0 = false)

/-- T's sequence depends on nothing but T: neither U, V nor X influence it (41_keystream_step.md R76). -/
def Obligations.SequenceOfTDependsOnTAlone : Prop :=
  (∀ g : Generator, (bitstep g).t = lfsr g.t 0xA740#16) ∧
  ∀ (k : Nat) (g h : Generator), g.t = h.t → (bitsteps k g).t = (bitsteps k h).t

/-- No two generator states lead to the same one by a bit-step. Rests on the bijection that
41_keystream_step.md R73 derives and on R70 to R77; the spec does not state it. -/
def Obligations.BitstepLosesNothing : Prop :=
  ∀ g h : Generator, bitstep g = bitstep h → g = h

/-- With T, U and V all zero a bit-step changes nothing, and the state is never entered: T not zero stays so
over every step of the machine, and holds after reset (41_keystream_step.md R80, a corner case the spec
derives). -/
def Obligations.ZeroGeneratorStaysAndIsNeverEntered : Prop :=
  (∀ x : Bit, bitstep ⟨0x0000#16, 0x0000#16, 0x0000#16, x⟩ = ⟨0x0000#16, 0x0000#16, 0x0000#16, x⟩) ∧
  State.reset.t ≠ 0x0000#16 ∧
  (∀ s s' : State, s.t ≠ 0x0000#16 → step s = .next s' → s'.t ≠ 0x0000#16)

/-- The accumulator shifts left by one and takes the keystream bit in bit 0; after eight bit-steps it is the
eight keystream bits, the first in bit 7, and no older bit is left then or later (41_keystream_step.md R78; the
spec's decision D3). -/
def Obligations.AccumulatorHoldsTheLastEightBits : Prop :=
  (∀ (acc : Byte) (x : Bit), shiftIn acc x = acc.extractLsb' 0 7 ++ x) ∧
  (∀ (g : Generator) (acc : Byte),
    accSteps 8 g acc = (bitsteps 1 g).x ++ (bitsteps 2 g).x ++ (bitsteps 3 g).x ++ (bitsteps 4 g).x ++
      (bitsteps 5 g).x ++ (bitsteps 6 g).x ++ (bitsteps 7 g).x ++ (bitsteps 8 g).x) ∧
  (∀ (k : Nat) (g : Generator) (a b : Byte), 8 ≤ k → accSteps k g a = accSteps k g b)

/-! ## STEP and BYTE -/

/-- STEP, branch by branch, with every register and the buffer (41_keystream_step.md R80, with R78, R79, R81
and 42_byte_apply.md R85, R86). It completes in every state. -/
def Obligations.StepRunsOneBitstep : Prop :=
  ∀ s : State,
    (s.pos = s.len → exec .step s = .next s) ∧
    (s.pos ≠ s.len → s.nacc ≠ 7#3 →
      exec .step s = .next
        { s with t := (bitstep ⟨s.t, s.u, s.v, s.x⟩).t, u := (bitstep ⟨s.t, s.u, s.v, s.x⟩).u,
                 v := (bitstep ⟨s.t, s.u, s.v, s.x⟩).v, x := (bitstep ⟨s.t, s.u, s.v, s.x⟩).x,
                 acc := s.acc.extractLsb' 0 7 ++ (bitstep ⟨s.t, s.u, s.v, s.x⟩).x,
                 nacc := s.nacc + 1#3 }) ∧
    (s.pos ≠ s.len → s.nacc = 7#3 →
      exec .step s = .next
        { s with t := (bitstep ⟨s.t, s.u, s.v, s.x⟩).t, u := (bitstep ⟨s.t, s.u, s.v, s.x⟩).u,
                 v := (bitstep ⟨s.t, s.u, s.v, s.x⟩).v, x := (bitstep ⟨s.t, s.u, s.v, s.x⟩).x,
                 acc := s.acc.extractLsb' 0 7 ++ (bitstep ⟨s.t, s.u, s.v, s.x⟩).x,
                 nacc := 0#3, pos := s.pos + 1,
                 buf := s.buf.write s.pos
                   (s.buf.read s.pos ^^^ (s.acc.extractLsb' 0 7 ++ (bitstep ⟨s.t, s.u, s.v, s.x⟩).x)) })

/-- STEP's frame: LEN and the pending events never change; a STEP that is gated or not at a byte boundary
changes no byte and leaves POS; one at a byte boundary XORs into the byte at the applied address the accumulator
as it then stands, and changes no other byte (41_keystream_step.md R80, R81; 42_byte_apply.md R85, R86). The
storage is in its canonical form (log entry 4). -/
def Obligations.StepFrame : Prop :=
  ∀ s t : State, s.buf.wf = true → exec .step s = .next t →
    t.len = s.len ∧ t.events = s.events ∧
    (s.done = true ∨ s.atBoundary = false → t.pos = s.pos ∧ ∀ a : Nat, t.buf.read a = s.buf.read a) ∧
    (s.done = false → s.atBoundary = true →
      t.pos = s.pos + 1 ∧
      t.buf.read s.appliedAddress = s.buf.read s.appliedAddress ^^^ t.acc ∧
      ∀ a : Nat, a ≠ s.appliedAddress → t.buf.read a = s.buf.read a)

/-- When POS = LEN, STEP and BYTE write no register and access no memory, exactly like HOLD
(41_keystream_step.md R81). -/
def Obligations.DoneGatesStepAndByte : Prop :=
  ∀ s : State, s.done = true →
    exec .step s = exec .hold s ∧ exec .byte s = exec .hold s ∧ exec .hold s = .next s ∧
    accesses .step s = [] ∧ accesses .byte s = []

/-- BYTE is eight STEPs, in every state (42_byte_apply.md R87). -/
def Obligations.ByteIsEightSteps : Prop :=
  ∀ s : State, exec .byte s = execAll (repeated 8 .step) s

/-- BYTE in the usual case: it completes, with the eight keystream bits x1 to x8 as the byte k, x1 in bit 7,
whatever ACC was (42_byte_apply.md R87, a case the spec derives). -/
def Obligations.ByteInTheUsualCase : Prop :=
  ∀ (s : State) (k : Byte), s.nacc = 0#3 → s.pos < s.len →
    k = (bitsteps 1 s.gen).x ++ (bitsteps 2 s.gen).x ++ (bitsteps 3 s.gen).x ++ (bitsteps 4 s.gen).x ++
      (bitsteps 5 s.gen).x ++ (bitsteps 6 s.gen).x ++ (bitsteps 7 s.gen).x ++ (bitsteps 8 s.gen).x →
    exec .byte s = .next
      { s with t := (bitsteps 8 s.gen).t, u := (bitsteps 8 s.gen).u, v := (bitsteps 8 s.gen).v,
               x := (bitsteps 8 s.gen).x, acc := k, nacc := 0#3, pos := s.pos + 1,
               buf := s.buf.write s.pos (s.buf.read s.pos ^^^ k) }

/-- BYTE from any count, more than one byte before the end: the boundary falls at STEP 8 - NACC, the rest start
the next byte, NACC ends where it was (42_byte_apply.md R87, a corner case). -/
def Obligations.ByteAcrossABoundary : Prop :=
  ∀ s : State, s.pos + 1 < s.len →
    exec .byte s = .next
      { s with t := (bitsteps 8 s.gen).t, u := (bitsteps 8 s.gen).u, v := (bitsteps 8 s.gen).v,
               x := (bitsteps 8 s.gen).x, acc := accSteps 8 s.gen s.acc, nacc := s.nacc, pos := s.pos + 1,
               buf := s.buf.write s.pos (s.buf.read s.pos ^^^ accSteps (8 - s.nacc.toNat) s.gen s.acc) }

/-- BYTE from any count at the last byte: the boundary at STEP 8 - NACC makes POS = LEN, the STEPs left are
gated, NACC ends at 0 (42_byte_apply.md R87, a corner case). -/
def Obligations.ByteIntoTheEnd : Prop :=
  ∀ (s : State) (k : Nat), s.pos + 1 = s.len → k = 8 - s.nacc.toNat →
    exec .byte s = .next
      { s with t := (bitsteps k s.gen).t, u := (bitsteps k s.gen).u, v := (bitsteps k s.gen).v,
               x := (bitsteps k s.gen).x, acc := accSteps k s.gen s.acc, nacc := 0#3, pos := s.len,
               buf := s.buf.write s.pos (s.buf.read s.pos ^^^ accSteps k s.gen s.acc) }

/-- BYTE's frame: LEN and the pending events never change; when not gated exactly the byte at the applied
address can change, POS goes up by one, and that byte takes the accumulator after 8 - NACC bit-steps
(42_byte_apply.md R85, R86, R87). The storage is in its canonical form (log entry 4). -/
def Obligations.ByteFrame : Prop :=
  ∀ s t : State, s.buf.wf = true → exec .byte s = .next t →
    t.len = s.len ∧ t.events = s.events ∧
    (s.done = true → t = s) ∧
    (s.done = false →
      t.pos = s.pos + 1 ∧
      t.buf.read s.appliedAddress =
        s.buf.read s.appliedAddress ^^^ accSteps (8 - s.nacc.toNat) s.gen s.acc ∧
      ∀ a : Nat, a ≠ s.appliedAddress → t.buf.read a = s.buf.read a)

/-! ## Accesses -/

/-- The block never accesses an address outside 0 to LEN-1, the only address it presents is POS, and HOLD and
INIT access nothing (20_memory.md R30, R33, the second derived by the spec). POS <= LEN is the premise that
rules out states no run reaches. -/
def Obligations.AccessesStayInsideTheBuffer : Prop :=
  ∀ (i : Instr) (s : State), s.pos ≤ s.len →
    (∀ x ∈ accesses i s, x.address = s.appliedAddress ∧ x.address < s.len) ∧
    (keepsInvocation i = false ∨ i = .hold → accesses i s = [])

/-- The accesses of a command account for all it does to the storage, and they are exactly these: an ungated
STEP at a byte boundary makes one read of B[POS] and then one write of the XORed byte at the same address; a STEP
that is gated or not at a boundary makes none; an ungated BYTE makes the one pair of the boundary it crosses, a
gated one none; HOLD and INIT make none (20_memory.md R30, R31, R37; 41_keystream_step.md R80, R81;
42_byte_apply.md R85, R87). The trace is the model's choice, log entry 11. -/
def Obligations.AccessesAccountForTheStorage : Prop :=
  (∀ (i : Instr) (s t : State), exec i s = .next t →
    t.buf = (accesses i s).foldl Access.on s.buf ∧
    (accesses i s = [] ∨
      ∃ b : Byte, accesses i s =
        [.read s.appliedAddress (s.buf.read s.appliedAddress), .write s.appliedAddress b])) ∧
  (∀ s : State,
    (s.done = false → s.atBoundary = true →
      accesses .step s =
        [.read s.appliedAddress (s.buf.read s.appliedAddress),
         .write s.appliedAddress (s.buf.read s.appliedAddress ^^^ shiftIn s.acc (bitstep s.gen).x)]) ∧
    (s.done = true ∨ s.atBoundary = false → accesses .step s = []) ∧
    (s.done = false →
      accesses .byte s =
        [.read s.appliedAddress (s.buf.read s.appliedAddress),
         .write s.appliedAddress
          (s.buf.read s.appliedAddress ^^^ accSteps (8 - s.nacc.toNat) s.gen s.acc)]) ∧
    (s.done = true → accesses .byte s = []) ∧
    accesses .hold s = [] ∧ ∀ n : Nat, accesses (.init n) s = [])

/-- One invocation run to DONE reads each byte once and writes each byte once, in ascending order, the write right
after the read, however STEP, BYTE and HOLD are mixed; so does `APPLY n` (20_memory.md R31, R37, the second derived
by the spec). The storage is in its canonical form (log entry 4); the trace is the model's choice, log entry 11. -/
def Obligations.InvocationAccessesEachByteOnceInOrder : Prop :=
  (∀ (n : Nat) (is : List Instr) (s t : State), s.buf.wf = true → (∀ i ∈ is, keepsInvocation i = true) →
    execAll (.init n :: is) s = .next t → t.done = true →
    accessesAll (.init n :: is) s =
      (List.range n).flatMap (fun a =>
        [.read a (s.buf.read a), .write a (s.buf.read a ^^^ ksByte a)])) ∧
  (∀ (n : Nat) (s : State), s.buf.wf = true →
    accessesAll (applyCommands n) s =
      (List.range n).flatMap (fun a =>
        [.read a (s.buf.read a), .write a (s.buf.read a ^^^ ksByte a)]))

/-! ## The keystream, the transform and the invariant -/

/-- The first keystream bytes, computed from the rules (42_byte_apply.md R89, derived by the spec; the literals
are unaudited, log entry 9). -/
def Obligations.FirstKeystreamBytes : Prop :=
  (List.range 8).map ksByte =
    [0x89#8, 0x7E#8, 0x47#8, 0x7F#8, 0xF4#8, 0x42#8, 0x3F#8, 0xE2#8]

/-- The invariant holds after reset (42_byte_apply.md R92). -/
def Obligations.ResetMeetsThePositionInvariant : Prop :=
  State.reset.Inv

/-- The invariant that ties state to position is kept by every step, whatever the host does: with
n = 8 POS + NACC, the generator is at G(n), ACC holds the last keystream bits, POS <= LEN, and POS = LEN only
with NACC = 0 (42_byte_apply.md R92, derived by the spec); the storage keeps its canonical form (log
entry 4). -/
def Obligations.EveryStepKeepsThePositionInvariant : Prop :=
  ∀ s s' : State, s.Inv → step s = .next s' → s'.Inv

/-- From any state that meets the invariant, however HOLD, STEP and BYTE are mixed, the bytes passed are XORed
each with the keystream byte of its own position, once, and no other byte changes (42_byte_apply.md R92,
20_memory.md R42, derived by the spec). -/
def Obligations.EachByteMeetsItsOwnKeystreamByte : Prop :=
  ∀ (is : List Instr) (s : State), (∀ i ∈ is, keepsInvocation i = true) → s.Inv →
    ∃ t : State, execAll is s = .next t ∧ t.Inv ∧ s.pos ≤ t.pos ∧ t.len = s.len ∧
      ∀ p : Nat, t.buf.read p =
        if s.pos ≤ p ∧ p < t.pos then s.buf.read p ^^^ ksByte p else s.buf.read p

/-- `APPLY n` is n + 1 commands; from any state it ends with DONE = 1 and B holding `apply` of what it held, no
byte outside B changed, and the generator at G(8n); `APPLY 0` is `INIT 0` alone and changes no byte
(30_encoding.md R56; 42_byte_apply.md R88 and R92, which the spec derives). -/
def Obligations.ApplyTransformsTheWholeBuffer : Prop :=
  (∀ n : Nat, applyCommands n = .init n :: List.replicate n .byte ∧ (applyCommands n).length = n + 1) ∧
  (∀ (n : Nat) (s : State), s.buf.wf = true →
    ∃ t : State, execAll (applyCommands n) s = .next t ∧ t.done = true ∧ t.pos = n ∧ t.len = n ∧
      t.nacc = 0#3 ∧ t.gen = orbit (8 * n) ∧
      (∀ p : Nat, t.buf.read p = if p < n then s.buf.read p ^^^ ksByte p else s.buf.read p) ∧
      t.bufferBytes = applyBytes ((List.range n).map s.memRead)) ∧
  (∀ s : State, ∃ t : State, execAll (applyCommands 0) s = .next t ∧ t.buf = s.buf)

/-- The transform keeps the length and is its own inverse; in the block, `APPLY n` twice in a row leaves the
storage as it was (42_byte_apply.md R88, R90; the sentence about the block the spec derives). -/
def Obligations.ApplyTwiceRestoresTheBuffer : Prop :=
  (∀ b : List Byte, (applyBytes b).length = b.length ∧ applyBytes (applyBytes b) = b) ∧
  (∀ (n : Nat) (s : State), s.buf.wf = true →
    ∃ t : State, execAll (applyCommands n ++ applyCommands n) s = .next t ∧ t.buf = s.buf)

/-- Any mixture of STEP, BYTE and HOLD that reaches DONE ends in the very state n BYTEs end in
(70_reset_and_hazards.md R127, derived by the spec). -/
def Obligations.MixedCommandsEqualApply : Prop :=
  ∀ (n : Nat) (is : List Instr) (s t : State), (∀ i ∈ is, keepsInvocation i = true) →
    execAll (.init n :: is) s = .next t → t.done = true → execAll (applyCommands n) s = .next t

/-- An invocation started by `INIT n` is over after exactly 8n bit-steps, not before; STEPs after that change
nothing, so T, U, V, X and ACC are not cleared (70_reset_and_hazards.md R129, derived by the spec). -/
def Obligations.DoneAfterExactlyEightNSteps : Prop :=
  ∀ (n k : Nat) (s : State),
    ∃ t : State, execAll (.init n :: repeated k .step) s = .next t ∧
      (t.done = true ↔ 8 * n ≤ k) ∧
      t.gen = orbit (min k (8 * n)) ∧
      (8 * n ≤ k → execAll (.init n :: repeated (8 * n) .step) s = .next t)

/-- Descrambling a prefix of a scrambled buffer recovers that prefix and leaves the rest scrambled
(70_reset_and_hazards.md R124, derived by the spec). -/
def Obligations.PrefixDescrambles : Prop :=
  ∀ (m n : Nat) (s : State), s.buf.wf = true → m ≤ n →
    ∃ t : State, execAll (applyCommands n ++ applyCommands m) s = .next t ∧
      ∀ p : Nat, t.buf.read p = if m ≤ p ∧ p < n then s.buf.read p ^^^ ksByte p else s.buf.read p

/-- The keystream is tied to position: the second part of a joined buffer meets the keystream from the first
part's length on, so a buffer scrambled whole and descrambled in two parts comes back with byte m + j XORed with
KS(m + j) and KS(j) (70_reset_and_hazards.md R124, derived by the spec). -/
def Obligations.KeystreamFollowsThePosition : Prop :=
  ∀ front back : List Byte,
    applyBytes (front ++ back) = applyBytes front ++ xorFrom front.length back ∧
    applyBytes ((applyBytes (front ++ back)).take front.length) = front ∧
    ∀ j : Nat, (hj : j < back.length) →
      (applyBytes ((applyBytes (front ++ back)).drop front.length))[j]? =
        some (back[j] ^^^ ksByte (front.length + j) ^^^ ksByte j)

/-- What precedes a payload decides nothing but its position: two buffers that agree from byte h on still agree
there after the transform, and the byte at offset j has met KS(h + j) (70_reset_and_hazards.md R126, and
41_keystream_step.md R82). -/
def Obligations.PayloadBehindAPrefix : Prop :=
  ∀ (h m : Nat) (s s' : State), s.buf.wf = true → s'.buf.wf = true →
    (∀ j : Nat, j < m → s.buf.read (h + j) = s'.buf.read (h + j)) →
    ∃ t t' : State, execAll (applyCommands (h + m)) s = .next t ∧
      execAll (applyCommands (h + m)) s' = .next t' ∧
      ∀ j : Nat, j < m → t.buf.read (h + j) = s.buf.read (h + j) ^^^ ksByte (h + j) ∧
        t'.buf.read (h + j) = t.buf.read (h + j)

/-- After a restart in the middle, `APPLY POS_old` over the prefix recovers the input
(70_reset_and_hazards.md R125, derived by the spec). -/
def Obligations.RestartIsRecoveredByApplyOverThePrefix : Prop :=
  ∀ (n m : Nat) (is : List Instr) (s u : State), s.buf.wf = true → (∀ i ∈ is, keepsInvocation i = true) →
    execAll (.init n :: is) s = .next u →
    ∃ t : State, execAll (.init m :: applyCommands u.pos) u = .next t ∧ t.buf = s.buf

/-- The keystream does not depend on the data: after any command sequence the registers are a function of the
sequence and the registers before it, not of the buffer (41_keystream_step.md R82). -/
def Obligations.RegistersDoNotDependOnTheData : Prop :=
  ∀ (is : List Instr) (s s' : State), s.SameRegisters s' →
    ∃ t t' : State, execAll is s = .next t ∧ execAll is s' = .next t' ∧ t.SameRegisters t'

/-- The block as a stream, one byte in and one out per BYTE, gives what the transform gives
(42_byte_apply.md R93, derived by the spec). -/
def Obligations.StreamViewAgrees : Prop :=
  ∀ b : List Byte, streamBytes Generator.reset b = applyBytes b

/-! ## Whole-machine rules -/

/-- Only INIT and reset write LEN or lower POS; every other event leaves LEN and moves POS by at most one; after
INIT or reset POS is 0 (10_state.md R18, 42_byte_apply.md R86, R92). -/
def Obligations.OnlyInitAndResetRestart : Prop :=
  ∀ (s s' : State) (e : HostEvent) (es : List HostEvent), s.events = e :: es → step s = .next s' →
    (e.restarts = false → s'.len = s.len ∧ s.pos ≤ s'.pos ∧ s'.pos ≤ s.pos + 1) ∧
    (e.restarts = true → s'.pos = 0)

/-- POS never exceeds LEN, and no byte is partly assembled at LEN: kept by every step (10_state.md R17,
42_byte_apply.md R92). -/
def Obligations.EveryStepKeepsPositionInRange : Prop :=
  ∀ s s' : State, s.InRange → step s = .next s' → s'.InRange

/-- DONE stays 1 until the next INIT with a non-zero length (60_exceptions.md R101). -/
def Obligations.DoneStaysUntilANonemptyInit : Prop :=
  ∀ s s' : State, s.done = true → step s = .next s' → s'.done = false →
    ∃ (n : Nat) (es : List HostEvent), n ≠ 0 ∧ s.events = .command initWord n :: es

/-- The storage keeps its canonical form over every step (log entry 4). -/
def Obligations.EveryStepKeepsTheStorageCanonical : Prop :=
  ∀ s s' : State, s.buf.wf = true → step s = .next s' → s'.buf.wf = true

/-- POS and LEN fit the AW bits of the registers, whatever AW is, as long as the host's operands fit its wires:
POS + 1 never overflows (41_keystream_step.md R80, 10_state.md R17, R18; derived by the spec). -/
def Obligations.PositionAndLengthFitTheirRegisters : Prop :=
  ∀ (aw : Nat) (s s' : State), s.Fits aw → (∀ e ∈ s.events.head?, e.fits aw = true) →
    step s = .next s' → s'.Fits aw

/-- A block with AW-bit registers and wires, for every AW, does on every command what this machine does with
natural numbers, from every state with POS <= LEN, and it stays in such states (00_scope.md section 4,
92_eei_decisions.md D9; log entry 3). -/
def Obligations.EveryAddressWidthAgreesWithTheMachine : Prop :=
  ∀ (aw : Nat) (cmd : CommandWord) (lenIn : BitVec aw) (s : NarrowState aw) (es : List HostEvent),
    s.pos.toNat ≤ s.len.toNat →
    exec (decode cmd lenIn.toNat) (s.widen es) = .next ((s.command cmd lenIn).widen es) ∧
    (s.command cmd lenIn).pos.toNat ≤ (s.command cmd lenIn).len.toNat
end

