-- ==== Sys2Proof/Laws/Keystream.lean ====
section
/-! SUPPORT. Small laws of the bit-step's iterations, the accumulator and the keystream. -/

namespace Sys2Proof.Machine

@[simp] theorem bitsteps_zero (g : Generator) : bitsteps 0 g = g := rfl

theorem bitsteps_succ (k : Nat) (g : Generator) : bitsteps (k + 1) g = bitstep (bitsteps k g) := rfl

/-- The first bit-step taken off instead of the last. -/
theorem bitsteps_succ_first (k : Nat) (g : Generator) : bitsteps (k + 1) g = bitsteps k (bitstep g) := by
  induction k with
  | zero => rfl
  | succ k ih => rw [bitsteps_succ, ih, ← bitsteps_succ]

theorem bitsteps_add (j k : Nat) (g : Generator) : bitsteps (j + k) g = bitsteps k (bitsteps j g) := by
  induction k with
  | zero => rfl
  | succ k ih => rw [← Nat.add_assoc, bitsteps_succ, ih, ← bitsteps_succ]

@[simp] theorem accSteps_zero (g : Generator) (acc : Byte) : accSteps 0 g acc = acc := rfl

theorem accSteps_succ (k : Nat) (g : Generator) (acc : Byte) :
    accSteps (k + 1) g acc = shiftIn (accSteps k g acc) (bitsteps (k + 1) g).x := rfl

theorem accSteps_succ_first (k : Nat) (g : Generator) (acc : Byte) :
    accSteps (k + 1) g acc = accSteps k (bitstep g) (shiftIn acc (bitstep g).x) := by
  induction k with
  | zero => rfl
  | succ k ih => rw [accSteps_succ, ih, accSteps_succ, bitsteps_succ_first (k + 1)]

/-- One sampled bit is 1 when that bit of the register is set. -/
theorem bitOf_eq_one (r : Reg16) (i : Nat) : bitOf r i = 1#1 ↔ r.getLsbD i = true := by
  constructor
  · intro h
    have := congrArg (fun v : BitVec 1 => v.getLsbD 0) h
    simpa [bitOf] using this
  · intro h
    apply BitVec.eq_of_getLsbD_eq
    intro k hk
    have : k = 0 := by omega
    subst this
    simpa [bitOf] using h

theorem bitOf_eq_zero (r : Reg16) (i : Nat) : bitOf r i = 0#1 ↔ r.getLsbD i = false := by
  have h : ∀ b : Bit, b = 0#1 ↔ ¬ b = 1#1 := by decide
  rw [h, bitOf_eq_one, Bool.not_eq_true]

/-- When U shifts, with the enable unfolded. -/
theorem bitstep_u_eq (g : Generator) :
    (bitstep g).u = if bitOf g.t 0 = 0#1 then lfsr g.u Config.uMask else g.u := by
  by_cases h : bitOf g.t 0 = 0#1
  · rw [if_pos h]
    exact if_pos (by simpa [Sampled.enU, Generator.sample] using h)
  · rw [if_neg h]
    exact if_neg (by simpa [Sampled.enU, Generator.sample] using h)

/-- When V shifts, with the enable unfolded. -/
theorem bitstep_v_eq (g : Generator) :
    (bitstep g).v = if bitOf g.t 0 = bitOf g.u 0 then lfsr g.v Config.vMask else g.v := by
  by_cases h : bitOf g.t 0 = bitOf g.u 0
  · rw [if_pos h]
    exact if_pos (by simpa [Sampled.enV, Generator.sample] using h)
  · rw [if_neg h]
    exact if_neg (by simpa [Sampled.enV, Generator.sample] using h)

/-- The bits of an appended pair, at the width a byte has. -/
theorem getLsbD_append_byte {n m : Nat} (h : n + m = 8) (a : BitVec n) (b : BitVec m) (i : Nat) :
    ((a ++ b).cast h).getLsbD i = if i < m then b.getLsbD i else a.getLsbD (i - m) := by
  rw [BitVec.getLsbD_cast, BitVec.getLsbD_append]

/-- Bit 0 of the shifted accumulator is the bit taken in. -/
theorem shiftIn_getLsbD_zero (acc : Byte) (x : Bit) : (shiftIn acc x).getLsbD 0 = x.getLsbD 0 :=
  getLsbD_append_byte (by rfl : 7 + 1 = 8) (acc.extractLsb' 0 7) x 0

/-- Every other bit is the one that stood below it. -/
theorem shiftIn_getLsbD_succ (acc : Byte) (x : Bit) {j : Nat} (hj : j < 7) :
    (shiftIn acc x).getLsbD (j + 1) = acc.getLsbD j := by
  have h : (shiftIn acc x).getLsbD (j + 1) = (acc.extractLsb' 0 7).getLsbD j :=
    getLsbD_append_byte (by rfl : 7 + 1 = 8) (acc.extractLsb' 0 7) x (j + 1)
  rw [h, BitVec.getLsbD_extractLsb', Nat.zero_add, decide_eq_true hj, Bool.true_and]

/-- One bit taken out of a byte. -/
theorem extract_eq_iff (a : Byte) (j : Nat) (x : Bit) : a.extractLsb' j 1 = x ↔ a.getLsbD j = x.getLsbD 0 := by
  constructor
  · intro h
    rw [← h, BitVec.getLsbD_extractLsb', Nat.add_zero]
    rfl
  · intro h
    apply BitVec.eq_of_getLsbD_eq
    intro i hi
    have : i = 0 := by omega
    subst this
    rw [BitVec.getLsbD_extractLsb', Nat.add_zero, h]
    rfl

theorem shiftIn_bit_zero (acc : Byte) (x : Bit) : (shiftIn acc x).extractLsb' 0 1 = x :=
  (extract_eq_iff _ _ _).2 (shiftIn_getLsbD_zero acc x)

theorem shiftIn_bit_succ (acc : Byte) (x : Bit) {j : Nat} (hj : j < 7) :
    (shiftIn acc x).extractLsb' (j + 1) 1 = acc.extractLsb' j 1 := by
  rw [extract_eq_iff, shiftIn_getLsbD_succ acc x hj]
  exact ((extract_eq_iff acc j _).1 rfl)

/-- Two bytes are equal when their eight bits are. -/
theorem Byte.eq_of_bits {a b : Byte} (h : ∀ j : Nat, j < 8 → a.extractLsb' j 1 = b.extractLsb' j 1) : a = b := by
  apply BitVec.eq_of_getLsbD_eq
  intro i hi
  have := congrArg (fun v : BitVec 1 => v.getLsbD 0) (h i hi)
  simpa using this

@[simp] theorem orbit_zero : orbit 0 = Generator.reset := rfl

theorem orbit_succ (k : Nat) : orbit (k + 1) = bitstep (orbit k) := rfl

theorem orbit_add (j k : Nat) : orbit (j + k) = bitsteps k (orbit j) := bitsteps_add j k _

theorem ksBit_eq (k : Nat) : ksBit k = (bitstep (orbit k)).x := rfl

/-- Eight shifts leave the eight bits taken in, the first in bit 7, whatever the accumulator held. -/
theorem shiftIn_eight (a : Byte) (x1 x2 x3 x4 x5 x6 x7 x8 : Bit) :
    shiftIn (shiftIn (shiftIn (shiftIn (shiftIn (shiftIn (shiftIn (shiftIn a x1) x2) x3) x4) x5) x6) x7) x8 =
      x1 ++ x2 ++ x3 ++ x4 ++ x5 ++ x6 ++ x7 ++ x8 := by
  apply BitVec.eq_of_getLsbD_eq
  intro j hj
  refine Eq.trans ?_ (getLsbD_append_byte (by rfl : 7 + 1 = 8) (x1 ++ x2 ++ x3 ++ x4 ++ x5 ++ x6 ++ x7) x8 j).symm
  simp only [BitVec.getLsbD_append]
  interval_cases j <;>
    simp only [shiftIn_getLsbD_zero, shiftIn_getLsbD_succ, Nat.reduceLT, Nat.reduceSub, reduceIte]

/-- A keystream byte is what eight bit-steps leave in the accumulator, whatever it held. -/
theorem ksByte_eq_accSteps (i : Nat) (acc : Byte) : ksByte i = accSteps 8 (orbit (8 * i)) acc :=
  (shiftIn_eight acc _ _ _ _ _ _ _ _).symm

@[simp] theorem xorFrom_length (i : Nat) (bs : List Byte) : (xorFrom i bs).length = bs.length := by
  induction bs generalizing i with
  | nil => rfl
  | cons b bs ih => simp [xorFrom, ih]

/-- XORing a list read off a function is reading off the XORed function. -/
theorem xorFrom_map (f : Nat → Byte) (i n : Nat) :
    xorFrom i ((List.range n).map f) = (List.range n).map (fun p => f p ^^^ ksByte (i + p)) := by
  induction n generalizing i f with
  | zero => rfl
  | succ n ih =>
    rw [List.range_succ_eq_map]
    simp only [List.map_cons, List.map_map, xorFrom, Nat.add_zero, List.cons.injEq, true_and]
    have := ih (f ∘ Nat.succ) (i + 1)
    rw [this]
    apply List.map_congr_left
    intro p _
    simp [Nat.succ_eq_add_one, Nat.add_assoc, Nat.add_comm 1 p]

end Sys2Proof.Machine
end

