-- ==== Sys2Proof/Laws/Memory.lean ====
section
/-! SUPPORT. The laws of the buffer's storage: the canonical form is kept, a read after a write, and equal
contents are equal lists. -/

namespace Sys2Proof.Machine

@[simp] theorem Memory.read_nil (a : Nat) : Memory.read [] a = Memory.unlisted := rfl

theorem Memory.read_cons (c : Host.Cell) (m : Memory) (a : Nat) :
    Memory.read (c :: m) a = if a = c.1 then c.2 else Memory.read m a := rfl

theorem Memory.risesFrom_cons (lo : Nat) (c : Host.Cell) (m : Memory) :
    Memory.risesFrom lo (c :: m) = true ↔
      lo ≤ c.1 ∧ c.2 ≠ Memory.unlisted ∧ Memory.risesFrom (c.1 + 1) m = true := by
  obtain ⟨a, b⟩ := c
  simp [Memory.risesFrom, and_assoc]

theorem Memory.risesFrom_mono {lo lo' : Nat} {m : Memory} (h : Memory.risesFrom lo m = true) (hle : lo' ≤ lo) :
    Memory.risesFrom lo' m = true := by
  cases m with
  | nil => rfl
  | cons c m =>
    rw [Memory.risesFrom_cons] at h ⊢
    exact ⟨by omega, h.2⟩

/-- An address below every listed one reads as unlisted. -/
theorem Memory.read_of_lt {lo : Nat} {m : Memory} (h : Memory.risesFrom lo m = true) {a : Nat} (ha : a < lo) :
    Memory.read m a = Memory.unlisted := by
  induction m generalizing lo with
  | nil => rfl
  | cons c m ih =>
    rw [Memory.risesFrom_cons] at h
    rw [Memory.read_cons, if_neg (by omega)]
    exact ih h.2.2 (by omega)

theorem Memory.put_risesFrom {lo a : Nat} {m : Memory} (h : Memory.risesFrom (a + 1) m = true) (hle : lo ≤ a)
    (b : Byte) : Memory.risesFrom lo (Memory.put a b m) = true := by
  unfold Memory.put
  split
  · exact Memory.risesFrom_mono h (by omega)
  · rename_i hb
    rw [Memory.risesFrom_cons]
    exact ⟨hle, hb, h⟩

theorem Memory.read_put {a : Nat} {m : Memory} (h : Memory.risesFrom (a + 1) m = true) (b : Byte) (c : Nat) :
    Memory.read (Memory.put a b m) c = if c = a then b else Memory.read m c := by
  unfold Memory.put
  split
  · rename_i hb
    split
    · subst c
      rw [Memory.read_of_lt h (by omega), hb]
    · rfl
  · rfl

theorem Memory.write_risesFrom {lo : Nat} {m : Memory} (h : Memory.risesFrom lo m = true) {a : Nat} (ha : lo ≤ a)
    (b : Byte) : Memory.risesFrom lo (Memory.write m a b) = true := by
  induction m generalizing lo with
  | nil => exact Memory.put_risesFrom rfl ha b
  | cons c m ih =>
    obtain ⟨a', b'⟩ := c
    have h' := (Memory.risesFrom_cons lo (a', b') m).1 h
    unfold Memory.write
    split
    · exact Memory.put_risesFrom ((Memory.risesFrom_cons _ _ _).2 ⟨by omega, h'.2⟩) ha b
    · split
      · subst a'
        exact Memory.put_risesFrom h'.2.2 ha b
      · exact (Memory.risesFrom_cons _ _ _).2 ⟨h'.1, h'.2.1, ih h'.2.2 (by simp only at *; omega)⟩

/-- Every store keeps the canonical form. -/
theorem Memory.write_wf {m : Memory} (h : m.wf = true) (a : Nat) (b : Byte) : (Memory.write m a b).wf = true :=
  Memory.write_risesFrom h (Nat.zero_le a) b

theorem Memory.read_write_from {lo : Nat} {m : Memory} (h : Memory.risesFrom lo m = true) (a : Nat) (b : Byte)
    (c : Nat) : Memory.read (Memory.write m a b) c = if c = a then b else Memory.read m c := by
  induction m generalizing lo with
  | nil => exact Memory.read_put rfl b c
  | cons d m ih =>
    obtain ⟨a', b'⟩ := d
    have h' := (Memory.risesFrom_cons lo (a', b') m).1 h
    unfold Memory.write
    split
    · exact Memory.read_put ((Memory.risesFrom_cons _ _ _).2 ⟨by omega, h'.2⟩) b c
    · split
      · subst a'
        rw [Memory.read_put h'.2.2, Memory.read_cons]
        split <;> simp_all
      · rw [Memory.read_cons, Memory.read_cons, ih h'.2.2]
        split <;> split <;> simp_all

/-- What a read gives after a store: the byte stored at that address, the old byte at any other. -/
theorem Memory.read_write {m : Memory} (h : m.wf = true) (a : Nat) (b : Byte) (c : Nat) :
    Memory.read (Memory.write m a b) c = if c = a then b else Memory.read m c :=
  Memory.read_write_from h a b c

theorem Memory.eq_of_read_from {lo : Nat} {m m' : Memory} (h : Memory.risesFrom lo m = true)
    (h' : Memory.risesFrom lo m' = true) (hr : ∀ a, Memory.read m a = Memory.read m' a) : m = m' := by
  induction m generalizing lo m' with
  | nil =>
    cases m' with
    | nil => rfl
    | cons c m' =>
      have hc := hr c.1
      rw [Memory.read_cons, if_pos rfl] at hc
      exact absurd hc.symm ((Memory.risesFrom_cons _ _ _).1 h').2.1
  | cons d m ih =>
    obtain ⟨h1, h2, h3⟩ := (Memory.risesFrom_cons _ _ _).1 h
    cases m' with
    | nil =>
      have hd := hr d.1
      rw [Memory.read_cons, if_pos rfl] at hd
      exact absurd hd h2
    | cons c m' =>
      obtain ⟨k1, k2, k3⟩ := (Memory.risesFrom_cons _ _ _).1 h'
      have hd := hr d.1
      have hc := hr c.1
      rw [Memory.read_cons, Memory.read_cons, if_pos rfl] at hd
      rw [Memory.read_cons, Memory.read_cons, if_pos rfl] at hc
      have hab : d.1 = c.1 := by
        rcases Nat.lt_trichotomy d.1 c.1 with hlt | heq | hgt
        · rw [if_neg (by omega), Memory.read_of_lt k3 (by omega)] at hd
          exact absurd hd h2
        · exact heq
        · rw [if_neg (by omega), Memory.read_of_lt h3 (by omega)] at hc
          exact absurd hc.symm k2
      rw [if_pos hab] at hd
      have hdc : d = c := Prod.ext hab hd
      subst hdc
      rw [ih h3 k3]
      intro a
      by_cases ha : a = d.1
      · rw [Memory.read_of_lt h3 (by omega), Memory.read_of_lt k3 (by omega)]
      · have := hr a
        rwa [Memory.read_cons, Memory.read_cons, if_neg ha, if_neg ha] at this

/-- Equal contents are equal lists. -/
theorem Memory.eq_of_read {m m' : Memory} (h : m.wf = true) (h' : m'.wf = true)
    (hr : ∀ a, Memory.read m a = Memory.read m' a) : m = m' :=
  Memory.eq_of_read_from h h' hr

/-- The storage at reset has the canonical form. -/
theorem State.reset_buf_wf : State.reset.buf.wf = true := rfl

end Sys2Proof.Machine
end

