-- ==== Sys2Proof/Laws/State.lean ====
section
/-! SUPPORT. One lemma per field per update of State, so that no proof unfolds a record update. -/

namespace Sys2Proof.Machine

@[simp] theorem State.gen_t (s : State) : s.gen.t = s.t := rfl
@[simp] theorem State.gen_u (s : State) : s.gen.u = s.u := rfl
@[simp] theorem State.gen_v (s : State) : s.gen.v = s.v := rfl
@[simp] theorem State.gen_x (s : State) : s.gen.x = s.x := rfl
@[simp] theorem State.memRead_eq (s : State) (a : Nat) : s.memRead a = s.buf.read a := rfl
@[simp] theorem State.appliedAddress_eq (s : State) : s.appliedAddress = s.pos := rfl
@[simp] theorem State.resetEvent_eq (s : State) : s.resetEvent = s.startFresh 0 := rfl
@[simp] theorem State.hostWrite_eq (s : State) (a : Nat) (b : Byte) : s.hostWrite a b = s.memWrite a b := rfl
@[simp] theorem latchedLength_eq (n : Nat) : latchedLength n = n := rfl

theorem State.done_iff (s : State) : s.done = true ↔ s.pos = s.len := by
  simp [State.done]

theorem State.atBoundary_iff (s : State) : s.atBoundary = true ↔ s.nacc = 7#3 := by
  simp [State.atBoundary]

/-- Two states are equal when the generator view and the other fields agree. -/
theorem State.ext_gen {s s' : State} (hg : s.gen = s'.gen) (ha : s.acc = s'.acc) (hn : s.nacc = s'.nacc)
    (hp : s.pos = s'.pos) (hl : s.len = s'.len) (hb : s.buf = s'.buf) (he : s.events = s'.events) : s = s' := by
  have ht := congrArg Generator.t hg
  have hu := congrArg Generator.u hg
  have hv := congrArg Generator.v hg
  have hx := congrArg Generator.x hg
  cases s
  cases s'
  simp_all

/-! Writing the generator registers. -/

@[simp] theorem State.setGen_t (s : State) (g : Generator) : (s.setGen g).t = g.t := rfl
@[simp] theorem State.setGen_u (s : State) (g : Generator) : (s.setGen g).u = g.u := rfl
@[simp] theorem State.setGen_v (s : State) (g : Generator) : (s.setGen g).v = g.v := rfl
@[simp] theorem State.setGen_x (s : State) (g : Generator) : (s.setGen g).x = g.x := rfl
@[simp] theorem State.setGen_acc (s : State) (g : Generator) : (s.setGen g).acc = s.acc := rfl
@[simp] theorem State.setGen_nacc (s : State) (g : Generator) : (s.setGen g).nacc = s.nacc := rfl
@[simp] theorem State.setGen_pos (s : State) (g : Generator) : (s.setGen g).pos = s.pos := rfl
@[simp] theorem State.setGen_len (s : State) (g : Generator) : (s.setGen g).len = s.len := rfl
@[simp] theorem State.setGen_buf (s : State) (g : Generator) : (s.setGen g).buf = s.buf := rfl
@[simp] theorem State.setGen_events (s : State) (g : Generator) : (s.setGen g).events = s.events := rfl
@[simp] theorem State.setGen_gen (s : State) (g : Generator) : (s.setGen g).gen = g := rfl

/-! One store. -/

@[simp] theorem State.memWrite_t (s : State) (a : Nat) (b : Byte) : (s.memWrite a b).t = s.t := rfl
@[simp] theorem State.memWrite_u (s : State) (a : Nat) (b : Byte) : (s.memWrite a b).u = s.u := rfl
@[simp] theorem State.memWrite_v (s : State) (a : Nat) (b : Byte) : (s.memWrite a b).v = s.v := rfl
@[simp] theorem State.memWrite_x (s : State) (a : Nat) (b : Byte) : (s.memWrite a b).x = s.x := rfl
@[simp] theorem State.memWrite_acc (s : State) (a : Nat) (b : Byte) : (s.memWrite a b).acc = s.acc := rfl
@[simp] theorem State.memWrite_nacc (s : State) (a : Nat) (b : Byte) : (s.memWrite a b).nacc = s.nacc := rfl
@[simp] theorem State.memWrite_pos (s : State) (a : Nat) (b : Byte) : (s.memWrite a b).pos = s.pos := rfl
@[simp] theorem State.memWrite_len (s : State) (a : Nat) (b : Byte) : (s.memWrite a b).len = s.len := rfl
@[simp] theorem State.memWrite_buf (s : State) (a : Nat) (b : Byte) : (s.memWrite a b).buf = s.buf.write a b := rfl
@[simp] theorem State.memWrite_events (s : State) (a : Nat) (b : Byte) : (s.memWrite a b).events = s.events := rfl
@[simp] theorem State.memWrite_gen (s : State) (a : Nat) (b : Byte) : (s.memWrite a b).gen = s.gen := rfl

/-! What INIT and reset share. -/

@[simp] theorem State.startFresh_t (s : State) (n : Nat) : (s.startFresh n).t = Config.tReset := rfl
@[simp] theorem State.startFresh_u (s : State) (n : Nat) : (s.startFresh n).u = Config.uReset := rfl
@[simp] theorem State.startFresh_v (s : State) (n : Nat) : (s.startFresh n).v = Config.vReset := rfl
@[simp] theorem State.startFresh_x (s : State) (n : Nat) : (s.startFresh n).x = Config.xReset := rfl
@[simp] theorem State.startFresh_acc (s : State) (n : Nat) : (s.startFresh n).acc = 0x00#8 := rfl
@[simp] theorem State.startFresh_nacc (s : State) (n : Nat) : (s.startFresh n).nacc = 0#3 := rfl
@[simp] theorem State.startFresh_pos (s : State) (n : Nat) : (s.startFresh n).pos = 0 := rfl
@[simp] theorem State.startFresh_len (s : State) (n : Nat) : (s.startFresh n).len = n := rfl
@[simp] theorem State.startFresh_buf (s : State) (n : Nat) : (s.startFresh n).buf = s.buf := rfl
@[simp] theorem State.startFresh_events (s : State) (n : Nat) : (s.startFresh n).events = s.events := rfl
@[simp] theorem State.startFresh_gen (s : State) (n : Nat) : (s.startFresh n).gen = Generator.reset := rfl

/-! The part every ungated bit-step does. -/

@[simp] theorem State.shiftBit_t (s : State) : s.shiftBit.t = (bitstep s.gen).t := rfl
@[simp] theorem State.shiftBit_u (s : State) : s.shiftBit.u = (bitstep s.gen).u := rfl
@[simp] theorem State.shiftBit_v (s : State) : s.shiftBit.v = (bitstep s.gen).v := rfl
@[simp] theorem State.shiftBit_x (s : State) : s.shiftBit.x = (bitstep s.gen).x := rfl
@[simp] theorem State.shiftBit_acc (s : State) : s.shiftBit.acc = shiftIn s.acc (bitstep s.gen).x := rfl
@[simp] theorem State.shiftBit_nacc (s : State) : s.shiftBit.nacc = nextCount s.nacc := rfl
@[simp] theorem State.shiftBit_pos (s : State) : s.shiftBit.pos = s.pos := rfl
@[simp] theorem State.shiftBit_len (s : State) : s.shiftBit.len = s.len := rfl
@[simp] theorem State.shiftBit_buf (s : State) : s.shiftBit.buf = s.buf := rfl
@[simp] theorem State.shiftBit_events (s : State) : s.shiftBit.events = s.events := rfl
@[simp] theorem State.shiftBit_gen (s : State) : s.shiftBit.gen = bitstep s.gen := rfl

/-! The read-XOR-write. -/

@[simp] theorem State.xorByte_t (s : State) : s.xorByte.t = s.t := rfl
@[simp] theorem State.xorByte_u (s : State) : s.xorByte.u = s.u := rfl
@[simp] theorem State.xorByte_v (s : State) : s.xorByte.v = s.v := rfl
@[simp] theorem State.xorByte_x (s : State) : s.xorByte.x = s.x := rfl
@[simp] theorem State.xorByte_acc (s : State) : s.xorByte.acc = s.acc := rfl
@[simp] theorem State.xorByte_nacc (s : State) : s.xorByte.nacc = s.nacc := rfl
@[simp] theorem State.xorByte_pos (s : State) : s.xorByte.pos = s.pos := rfl
@[simp] theorem State.xorByte_len (s : State) : s.xorByte.len = s.len := rfl
@[simp] theorem State.xorByte_buf (s : State) : s.xorByte.buf = s.buf.write s.pos (s.buf.read s.pos ^^^ s.acc) := rfl
@[simp] theorem State.xorByte_events (s : State) : s.xorByte.events = s.events := rfl
@[simp] theorem State.xorByte_gen (s : State) : s.xorByte.gen = s.gen := rfl

/-! The advance. -/

@[simp] theorem State.advance_t (s : State) : s.advance.t = s.t := rfl
@[simp] theorem State.advance_u (s : State) : s.advance.u = s.u := rfl
@[simp] theorem State.advance_v (s : State) : s.advance.v = s.v := rfl
@[simp] theorem State.advance_x (s : State) : s.advance.x = s.x := rfl
@[simp] theorem State.advance_acc (s : State) : s.advance.acc = s.acc := rfl
@[simp] theorem State.advance_nacc (s : State) : s.advance.nacc = s.nacc := rfl
@[simp] theorem State.advance_pos (s : State) : s.advance.pos = s.pos + 1 := rfl
@[simp] theorem State.advance_len (s : State) : s.advance.len = s.len := rfl
@[simp] theorem State.advance_buf (s : State) : s.advance.buf = s.buf := rfl
@[simp] theorem State.advance_events (s : State) : s.advance.events = s.events := rfl
@[simp] theorem State.advance_gen (s : State) : s.advance.gen = s.gen := rfl

end Sys2Proof.Machine
end

