-- ==== Sys2Proof/Laws/Step.lean ====
section
/-! SUPPORT. What STEP, a run of STEPs, a command sequence and one event can do, each said once. -/

namespace Sys2Proof.Machine

/-- Everything one STEP can do: nothing when DONE; a bit-step inside a byte; the eighth bit-step with the
applier. -/
theorem State.oneStep_cases (s : State) :
    (s.pos = s.len ∧ s.oneStep = s) ∨
    (s.pos ≠ s.len ∧ s.nacc ≠ 7#3 ∧ s.oneStep = s.shiftBit) ∨
    (s.pos ≠ s.len ∧ s.nacc = 7#3 ∧ s.oneStep = s.shiftBit.xorByte.advance) := by
  unfold State.oneStep
  split
  · exact .inl ⟨(State.done_iff s).1 ‹_›, rfl⟩
  · have hp : s.pos ≠ s.len := fun h => ‹¬s.done = true› ((State.done_iff s).2 h)
    unfold State.ungatedStep
    split
    · exact .inr (.inr ⟨hp, (State.atBoundary_iff s).1 ‹_›, rfl⟩)
    · exact .inr (.inl ⟨hp, fun h => ‹¬s.atBoundary = true› ((State.atBoundary_iff s).2 h), rfl⟩)

/-- The three cases one by one: when DONE, inside a byte, at its boundary. -/
theorem State.oneStep_of_done {s : State} (h : s.pos = s.len) : s.oneStep = s := by
  rcases s.oneStep_cases with ⟨-, h'⟩ | ⟨h', -⟩ | ⟨h', -⟩
  · exact h'
  · exact absurd h h'
  · exact absurd h h'

theorem State.oneStep_inside {s : State} (h : s.pos ≠ s.len) (hn : s.nacc ≠ 7#3) : s.oneStep = s.shiftBit := by
  rcases s.oneStep_cases with ⟨h', -⟩ | ⟨-, -, h'⟩ | ⟨-, h', -⟩
  · exact absurd h' h
  · exact h'
  · exact absurd h' hn

theorem State.oneStep_boundary {s : State} (h : s.pos ≠ s.len) (hn : s.nacc = 7#3) :
    s.oneStep = s.shiftBit.xorByte.advance := by
  rcases s.oneStep_cases with ⟨h', -⟩ | ⟨-, h', -⟩ | ⟨-, -, h'⟩
  · exact absurd h' h
  · exact absurd hn h'
  · exact h'

@[simp] theorem State.oneStep_len (s : State) : s.oneStep.len = s.len := by
  rcases s.oneStep_cases with ⟨-, h⟩ | ⟨-, -, h⟩ | ⟨-, -, h⟩ <;> rw [h] <;> rfl

@[simp] theorem State.oneStep_events (s : State) : s.oneStep.events = s.events := by
  rcases s.oneStep_cases with ⟨-, h⟩ | ⟨-, -, h⟩ | ⟨-, -, h⟩ <;> rw [h] <;> rfl

/-- Every STEP keeps the canonical form of the storage. -/
theorem State.oneStep_wf {s : State} (h : s.buf.wf = true) : s.oneStep.buf.wf = true := by
  rcases s.oneStep_cases with ⟨-, h'⟩ | ⟨-, -, h'⟩ | ⟨-, -, h'⟩ <;> rw [h']
  · exact h
  · exact h
  · exact Memory.write_wf h _ _

theorem nextCount_of_ne {n : Count} (h : n ≠ 7#3) : (nextCount n).toNat = n.toNat + 1 := by
  have : ∀ n : Count, n ≠ 7#3 → (nextCount n).toNat = n.toNat + 1 := by decide
  exact this n h

theorem nextCount_seven : nextCount 7#3 = 0#3 := rfl

@[simp] theorem State.steps_zero (s : State) : s.steps 0 = s := rfl

theorem State.steps_succ (k : Nat) (s : State) : s.steps (k + 1) = s.oneStep.steps k := rfl

theorem State.steps_add (j k : Nat) (s : State) : s.steps (j + k) = (s.steps j).steps k := by
  induction j generalizing s with
  | zero => simp
  | succ j ih => rw [Nat.add_right_comm, State.steps_succ, ih, State.steps_succ]

theorem State.steps_of_done {s : State} (h : s.pos = s.len) (k : Nat) : s.steps k = s := by
  induction k with
  | zero => rfl
  | succ k ih => rw [State.steps_succ, State.oneStep_of_done h, ih]

@[simp] theorem State.steps_len (k : Nat) (s : State) : (s.steps k).len = s.len := by
  induction k generalizing s with
  | zero => rfl
  | succ k ih => rw [State.steps_succ, ih, State.oneStep_len]

@[simp] theorem State.steps_events (k : Nat) (s : State) : (s.steps k).events = s.events := by
  induction k generalizing s with
  | zero => rfl
  | succ k ih => rw [State.steps_succ, ih, State.oneStep_events]

/-- The bit-steps a command that keeps the invocation asks for. -/
def stepCount : Instr → Nat
  | .hold => 0
  | .init _ => 0
  | .step => 1
  | .byte => 8

/-- A command that keeps the invocation is a number of STEPs. -/
theorem exec_keeps {i : Instr} (h : keepsInvocation i = true) (s : State) :
    exec i s = .next (s.steps (stepCount i)) := by
  cases i with
  | hold => rfl
  | init _ => cases h
  | step => rfl
  | byte => rfl

/-- A sequence of such commands is a number of STEPs. -/
theorem execAll_keeps {is : List Instr} (h : ∀ i ∈ is, keepsInvocation i = true) (s : State) :
    execAll is s = .next (s.steps ((is.map stepCount).sum)) := by
  induction is generalizing s with
  | nil => rfl
  | cons i is ih =>
    simp only [execAll, exec_keeps (h i (by simp)), List.map_cons, List.sum_cons, State.steps_add]
    exact ih (fun j hj => h j (by simp [hj])) _

theorem execAll_init (n : Nat) (is : List Instr) (s : State) :
    execAll (.init n :: is) s = execAll is (s.startFresh n) := rfl

theorem execAll_append (is js : List Instr) (s : State) :
    execAll (is ++ js) s =
      match execAll is s with
      | .next s' => execAll js s'
      | .fault r => .fault r
      | .refused r => .refused r := by
  induction is generalizing s with
  | nil => rfl
  | cons i is ih =>
    simp only [List.cons_append, execAll]
    cases exec i s with
    | next s' => exact ih s'
    | fault r => rfl
    | refused r => rfl

/-- APPLY n is INIT n and then 8n STEPs. -/
theorem execAll_apply (n : Nat) (s : State) :
    execAll (applyCommands n) s = .next ((s.startFresh n).steps (8 * n)) := by
  have h : ∀ i ∈ repeated n .byte, keepsInvocation i = true := by
    intro i hi
    rw [List.eq_of_mem_replicate hi]
    rfl
  rw [applyCommands, execAll_init, execAll_keeps h]
  simp [repeated, stepCount, Nat.mul_comm]

/-- No command touches what is pending. -/
theorem exec_keeps_events {i : Instr} {s t : State} (h : exec i s = .next t) : t.events = s.events := by
  cases i with
  | hold => cases h; rfl
  | init n => cases h; rfl
  | step => cases h; exact State.oneStep_events s
  | byte => cases h; exact State.steps_events 8 s

/-- Everything one step of the machine can do. -/
theorem step_cases {s s' : State} (h : step s = .next s') :
    (s.events = [] ∧ s' = s) ∨
    ∃ e es, s.events = e :: es ∧ State.runEvent e { s with events := es } = .next s' := by
  unfold step State.takeEvent at h
  split at h
  · rename_i he
    cases h
    exact .inl ⟨he, rfl⟩
  · rename_i e es he
    exact .inr ⟨e, es, he, h⟩

/-- Everything one event can do: start afresh, a number of STEPs, one host store, or nothing. -/
theorem runEvent_cases {e : HostEvent} {s s' : State} (h : State.runEvent e s = .next s') :
    (∃ n, s' = s.startFresh n) ∨ (∃ k, s' = s.steps k) ∨ (∃ a b, s' = s.memWrite a b) := by
  cases e with
  | reset => cases h; exact .inl ⟨0, rfl⟩
  | resetWithCommand _ _ => cases h; exact .inl ⟨0, rfl⟩
  | hostWrite a b => cases h; exact .inr (.inr ⟨a, b, rfl⟩)
  | hostRead _ => cases h; exact .inr (.inl ⟨0, rfl⟩)
  | observe => cases h; exact .inr (.inl ⟨0, rfl⟩)
  | command cmd lenIn =>
    simp only [State.runEvent] at h
    cases hd : decode cmd lenIn with
    | hold => rw [hd] at h; cases h; exact .inr (.inl ⟨0, rfl⟩)
    | init n => rw [hd] at h; cases h; exact .inl ⟨n, rfl⟩
    | step => rw [hd] at h; cases h; exact .inr (.inl ⟨1, rfl⟩)
    | byte => rw [hd] at h; cases h; exact .inr (.inl ⟨8, rfl⟩)

theorem run_zero (s : State) : run 0 s = .next s := rfl

/-- A run takes one step and goes on from where it led. -/
theorem run_succ (k : Nat) (s : State) :
    run (k + 1) s =
      match step s with
      | .next s' => run k s'
      | .fault r => .fault r
      | .refused r => .refused r := by
  refine (Host.Core.run.eq_2 Sys2Proof.core s k).trans ?_
  rw [show Sys2Proof.core.step s = step s from rfl]
  cases step s <;> rfl

/-- What is pending plays no part in a STEP. -/
theorem State.oneStep_withEvents (s : State) (es : List HostEvent) :
    ({ s with events := es } : State).oneStep = { s.oneStep with events := es } := by
  by_cases hp : s.pos = s.len
  · rw [State.oneStep_of_done hp, State.oneStep_of_done (s := { s with events := es }) hp]
  · by_cases hn : s.nacc = 7#3
    · rw [State.oneStep_boundary hp hn, State.oneStep_boundary (s := { s with events := es }) hp hn]
      rfl
    · rw [State.oneStep_inside hp hn, State.oneStep_inside (s := { s with events := es }) hp hn]
      rfl

theorem State.steps_withEvents (k : Nat) (s : State) (es : List HostEvent) :
    ({ s with events := es } : State).steps k = { s.steps k with events := es } := by
  induction k generalizing s with
  | zero => rfl
  | succ k ih => rw [State.steps_succ, State.oneStep_withEvents, ih, State.steps_succ]

end Sys2Proof.Machine
end

