-- ==== Sys2Proof/Laws/Byte.lean ====
section
/-! SUPPORT. What a run of STEPs does inside a byte, and what the STEP that ends the byte leaves. -/

namespace Sys2Proof.Machine

/-- Before the byte boundary `k` STEPs are `k` bit-steps, `k` shifts of ACC and `k` counts. -/
theorem State.steps_inside {s : State} (hp : s.pos ≠ s.len) (k : Nat) (hk : s.nacc.toNat + k ≤ 7) :
    s.steps k =
      { s.setGen (bitsteps k s.gen) with
        acc := accSteps k s.gen s.acc, nacc := s.nacc + BitVec.ofNat 3 k } := by
  induction k generalizing s with
  | zero =>
    rw [show s.nacc + BitVec.ofNat 3 0 = s.nacc by simp]
    rfl
  | succ k ih =>
    have hn : s.nacc ≠ 7#3 := by
      intro e
      rw [e] at hk
      simp at hk
    have h1 : s.shiftBit.nacc = s.nacc + 1#3 := if_neg hn
    have h2 : s.shiftBit.nacc.toNat = s.nacc.toNat + 1 := nextCount_of_ne hn
    rw [State.steps_succ, State.oneStep_inside hp hn, ih (s := s.shiftBit) hp (by omega)]
    have h3 : s.nacc + 1#3 + BitVec.ofNat 3 k = s.nacc + BitVec.ofNat 3 (k + 1) := by
      apply BitVec.eq_of_toNat_eq
      simp only [BitVec.toNat_add, BitVec.toNat_ofNat]
      omega
    rw [h1, h3, bitsteps_succ_first, accSteps_succ_first]
    rfl

/-- The STEPs up to and with the byte boundary: the accumulator they leave is XORed into the byte at POS, POS
goes up by one, the count is 0. -/
theorem State.steps_toBoundary {s : State} (hp : s.pos ≠ s.len) :
    s.steps (8 - s.nacc.toNat) =
      { s.setGen (bitsteps (8 - s.nacc.toNat) s.gen) with
        acc := accSteps (8 - s.nacc.toNat) s.gen s.acc, nacc := 0#3, pos := s.pos + 1,
        buf := s.buf.write s.pos (s.buf.read s.pos ^^^ accSteps (8 - s.nacc.toNat) s.gen s.acc) } := by
  have hlt := s.nacc.isLt
  have e : 8 - s.nacc.toNat = (7 - s.nacc.toNat) + 1 := by omega
  have h7 : s.nacc + BitVec.ofNat 3 (7 - s.nacc.toNat) = 7#3 := by
    apply BitVec.eq_of_toNat_eq
    simp only [BitVec.toNat_add, BitVec.toNat_ofNat]
    omega
  rw [e, State.steps_add, State.steps_inside hp (7 - s.nacc.toNat) (by omega), h7]
  refine (State.oneStep_boundary ?_ ?_).trans rfl
  · exact hp
  · rfl

end Sys2Proof.Machine
end

