-- ==== Sys2Proof/Laws/Bus.lean ====
section
/-! SUPPORT. What the accesses of one STEP can be, said once, and how the traces of STEPs join. -/

namespace Sys2Proof.Machine

/-- Either no access and the storage as it was, or the read and the write of a byte boundary. -/
theorem State.stepAccesses_cases (s : State) :
    (s.stepAccesses = [] ∧ s.oneStep.buf = s.buf) ∨
    (s.pos ≠ s.len ∧ s.nacc = 7#3 ∧
      s.stepAccesses =
        [.read s.pos (s.buf.read s.pos), .write s.pos (s.buf.read s.pos ^^^ s.shiftBit.acc)] ∧
      s.oneStep.buf = s.buf.write s.pos (s.buf.read s.pos ^^^ s.shiftBit.acc)) := by
  rcases s.oneStep_cases with ⟨h1, h'⟩ | ⟨h1, h2, h'⟩ | ⟨h1, h2, h'⟩
  · exact .inl ⟨if_pos ((State.done_iff s).2 h1), by rw [h']⟩
  · refine .inl ⟨?_, by rw [h']; rfl⟩
    rw [State.stepAccesses, if_neg (fun e => h1 ((State.done_iff s).1 e)),
      if_neg (fun e => h2 ((State.atBoundary_iff s).1 e))]
  · refine .inr ⟨h1, h2, ?_, by rw [h']; rfl⟩
    rw [State.stepAccesses, if_neg (fun e => h1 ((State.done_iff s).1 e)),
      if_pos ((State.atBoundary_iff s).2 h2)]
    rfl

theorem State.stepsAccesses_add (j k : Nat) (s : State) :
    s.stepsAccesses (j + k) = s.stepsAccesses j ++ (s.steps j).stepsAccesses k := by
  induction j generalizing s with
  | zero => rw [Nat.zero_add]; rfl
  | succ j ih =>
    rw [Nat.add_right_comm, State.stepsAccesses, ih, State.stepsAccesses, List.append_assoc, State.steps_succ]

/-- A finished buffer is not accessed. -/
theorem State.stepsAccesses_of_done {s : State} (hp : s.pos = s.len) (k : Nat) : s.stepsAccesses k = [] := by
  induction k with
  | zero => rfl
  | succ k ih =>
    rw [State.stepsAccesses, show s.stepAccesses = [] from if_pos ((State.done_iff s).2 hp),
      State.oneStep_of_done hp, ih]
    rfl

/-- Before the byte boundary there is no access. -/
theorem State.stepsAccesses_inside {s : State} (k : Nat) (hk : s.nacc.toNat + k ≤ 7) :
    s.stepsAccesses k = [] := by
  induction k generalizing s with
  | zero => rfl
  | succ k ih =>
    by_cases hp : s.pos = s.len
    · exact State.stepsAccesses_of_done hp _
    · have hn : s.nacc ≠ 7#3 := by
        intro e
        rw [e] at hk
        simp at hk
      rcases s.stepAccesses_cases with ⟨h, -⟩ | ⟨-, hn', -⟩
      · have h2 : s.shiftBit.nacc.toNat = s.nacc.toNat + 1 := nextCount_of_ne hn
        rw [State.stepsAccesses, h, State.oneStep_inside hp hn, ih (s := s.shiftBit) (by omega)]
        rfl
      · exact absurd hn' hn

/-- A sequence that keeps the invocation makes the accesses of its STEPs. -/
theorem accessesAll_keeps {is : List Instr} (h : ∀ i ∈ is, keepsInvocation i = true) (s : State) :
    accessesAll is s = s.stepsAccesses ((is.map stepCount).sum) := by
  induction is generalizing s with
  | nil => rfl
  | cons i is ih =>
    have hi : accesses i s = s.stepsAccesses (stepCount i) := by
      cases i with
      | hold => rfl
      | init _ => cases h _ (List.mem_cons_self ..)
      | step => exact (List.append_nil _).symm
      | byte => rfl
    simp only [accessesAll, exec_keeps (h i (by simp)), List.map_cons, List.sum_cons, State.stepsAccesses_add, hi]
    exact congrArg _ (ih (fun j hj => h j (by simp [hj])) _)

end Sys2Proof.Machine
end

