-- ==== Sys2Proof/Laws/PerInstr.lean ====
section
/-! SUPPORT. One lemma per command: its word is the word of its row in spec/opcode_table.json. -/

namespace Sys2Proof.Laws.TableRow

/-- The rows of spec/opcode_table.json: mnemonic, match, mask. -/
def rows : List (String × Nat × Nat) :=
  [("HOLD", 0x0, 0x3), ("INIT", 0x1, 0x3), ("STEP", 0x2, 0x3), ("BYTE", 0x3, 0x3)]

/-- The command's row stands in the table, and the command's number meets the row's match under its mask. -/
def Statement (i : Sys2Proof.Instr) : Prop :=
  ∃ m k, (Sys2Proof.mnemonic i, m, k) ∈ rows ∧ Sys2Proof.encodeTableWord i &&& k = m

theorem hold : Statement .hold :=
  ⟨0x0, 0x3, by decide, by decide⟩

theorem init (lenIn : Nat) : Statement (.init lenIn) := by
  refine ⟨0x1, 0x3, by simp [rows, Sys2Proof.mnemonic], ?_⟩
  have h : Sys2Proof.encodeTableWord (.init lenIn) = lenIn * 4 + 1 := rfl
  rw [h, show (0x3 : Nat) = 2 ^ 2 - 1 from rfl, Nat.and_two_pow_sub_one_eq_mod]
  omega

theorem step : Statement .step :=
  ⟨0x2, 0x3, by decide, by decide⟩

theorem byte : Statement .byte :=
  ⟨0x3, 0x3, by decide, by decide⟩

end Sys2Proof.Laws.TableRow
end

