-- ==== Sys2Proof/Tests/Slice0.lean ====
section
/-! SUPPORT. Tests with values taken from 95_test_vectors.md or worked out by hand from the rules, and for every
statement with hypotheses a state and operands that meet them. -/

namespace Sys2Proof.Tests

open Sys2Proof Sys2Proof.Machine

/-! ## WellFormed: an ill-formed command for each check -/

/-- AW >= 1 (00_scope.md section 4). -/
theorem test_wf_refuses_width_zero :
    Instr.wf 0 .hold = false ∧ Instr.wf 0 (.init 0) = false ∧ Instr.wf 0 .step = false ∧
      Instr.wf 0 .byte = false := by decide

/-- `len_in` has AW bits (30_encoding.md R52). -/
theorem test_wf_refuses_operand_too_wide :
    Instr.wf 4 (.init 16) = false ∧ Instr.wf 4 (.init 15) = true := by decide

/-! ## Decoding: the words of 30_encoding.md R51, bit by bit -/

theorem test_decode_hold : decode 0b00#2 5 = .hold := by decide
theorem test_decode_init : decode 0b01#2 5 = .init 5 := by decide
theorem test_decode_step : decode 0b10#2 5 = .step := by decide
theorem test_decode_byte : decode 0b11#2 5 = .byte := by decide

/-- `len_in` = 8 on four wires above `cmd` = 01. -/
theorem test_decode_wires_init : decodeWires 4 0b100001#6 = .init 8 := by decide

/-- The listing line of INIT (30_encoding.md R55). -/
theorem test_listing_init : listing (.init 8) = "INIT 8" := by decide

/-! ## The shift and the bit-step: 95_test_vectors.md sections 2.3 and 2.4 -/

/-- Rows 0001, 8001, FFFE and 5555 of section 2.3, masks T, U, V. -/
theorem test_lfsr_rows :
    [0x0001#16, 0x8001#16, 0xFFFE#16, 0x5555#16].map
        (fun r => [lfsr r Config.tMask, lfsr r Config.uMask, lfsr r Config.vMask]) =
      [[0xA740#16, 0xFB10#16, 0xB3D0#16], [0xE740#16, 0xBB10#16, 0xF3D0#16],
       [0x7FFF#16, 0x7FFF#16, 0x7FFF#16], [0x8DEA#16, 0xD1BA#16, 0x997A#16]] := by decide

/-- Six rows of section 2.4. -/
theorem test_bitstep_rows :
    [(⟨0x0001#16, 0x0001#16, 0x0001#16, 0#1⟩ : Generator), ⟨0xFFFF#16, 0xFFFF#16, 0xFFFF#16, 1#1⟩,
     ⟨0x0001#16, 0x0000#16, 0x0001#16, 0#1⟩, ⟨0x0000#16, 0x0001#16, 0x0001#16, 1#1⟩,
     ⟨0x0003#16, 0x0003#16, 0x0001#16, 1#1⟩, ⟨0xFFFE#16, 0x0001#16, 0xFFFF#16, 0#1⟩].map bitstep =
      [⟨0xA740#16, 0x0001#16, 0xB3D0#16, 0#1⟩, ⟨0xD8BF#16, 0xFFFF#16, 0xCC2F#16, 0#1⟩,
       ⟨0xA740#16, 0x0000#16, 0x0001#16, 1#1⟩, ⟨0x0000#16, 0xFB10#16, 0x0001#16, 0#1⟩,
       ⟨0xA741#16, 0x0003#16, 0xB3D0#16, 0#1⟩, ⟨0x7FFF#16, 0xFB10#16, 0xFFFF#16, 0#1⟩] := by decide

/-! ## The commands: 95_test_vectors.md section 2.5 -/

/-- A state with nothing pending. -/
def st (t u v : Reg16) (x : Bit) (acc : Byte) (nacc : Count) (pos len : Nat) (buf : Memory) : State :=
  { t := t, u := u, v := v, x := x, acc := acc, nacc := nacc, pos := pos, len := len, buf := buf, events := [] }

/-- The outcome is the next state `t`. -/
def answers (o : Host.Outcome State Fault Refusal) (t : State) : Bool :=
  match o with
  | .next s => decide (s = t)
  | .fault _ => false
  | .refused _ => false

/-- The state after INIT with length `n` (10_state.md R23). -/
def afterInit (n : Nat) (buf : Memory) : State :=
  st 0x2953#16 0xD9C2#16 0x3FF1#16 1#1 0x00#8 0#3 0 n buf

/-- The state of V7: one bit-step before the first byte boundary. -/
def beforeBoundary (len : Nat) (buf : Memory) : State :=
  st 0x8965#16 0x66B0#16 0x5614#16 0#1 0x44#8 7#3 0 len buf

/-- The state of V11 and V12: three bit-steps into the first byte. -/
def inFirstByte (len : Nat) (buf : Memory) : State :=
  st 0x7F5A#16 0x6CE1#16 0xAC28#16 0#1 0x04#8 3#3 0 len buf

/-- The state of V2 and V13: a finished buffer of eight bytes. -/
def finished : State :=
  st 0x0C51#16 0x04C9#16 0xE19E#16 0#1 0xE2#8 0#3 8 8 []

/-- V1. -/
theorem test_hold_keeps_all :
    answers (exec .hold (st 0xB3E9#16 0xD9C2#16 0x3FF1#16 1#1 0x01#8 1#3 0 8 []))
      (st 0xB3E9#16 0xD9C2#16 0x3FF1#16 1#1 0x01#8 1#3 0 8 []) = true := by decide

/-- V2. -/
theorem test_init_restarts : answers (exec (.init 8) finished) (afterInit 8 []) = true := by decide

/-- V6. -/
theorem test_step_first :
    answers (exec .step (afterInit 8 [])) (st 0xB3E9#16 0xD9C2#16 0x3FF1#16 1#1 0x01#8 1#3 0 8 []) = true := by
  decide

/-- V8: the accumulator after the shift is applied, at the POS before the increment. -/
theorem test_step_boundary :
    answers (exec .step (beforeBoundary 8 [(0, 0xFF#8)]))
      (st 0xE3F2#16 0x66B0#16 0x5614#16 1#1 0x89#8 0#3 1 8 [(0, 0x76#8)]) = true := by decide

/-- V11: the boundary at the fifth STEP ends the buffer, the last three are gated. -/
theorem test_byte_into_end :
    answers (exec .byte (inFirstByte 1 [(0, 0xA5#8)]))
      (st 0xE3F2#16 0x66B0#16 0x5614#16 1#1 0x89#8 0#3 1 1 [(0, 0x2C#8)]) = true := by decide

/-- V12: the boundary at the fifth STEP, three more STEPs run. -/
theorem test_byte_across :
    answers (exec .byte (inFirstByte 2 [(0, 0xFF#8)]))
      (st 0x4FDE#16 0x19AC#16 0x1585#16 1#1 0x4B#8 3#3 1 2 [(0, 0x76#8)]) = true := by decide

/-- V4 as a first instruction after reset: STEP is gated. -/
theorem test_first_step_after_reset :
    answers (step (State.reset.withFetchWord 8 2)) State.reset = true := by decide

/-! ## Witnesses: the hypotheses of each statement are met -/

theorem witness_ResetEventPutsEveryRegisterAtItsResetValue :
    { finished with events := [.reset] }.events = .reset :: [] := rfl

theorem witness_InitForgetsTheRegistersBefore :
    finished ≠ afterInit 8 [] ∧ finished.buf = (afterInit 8 []).buf ∧ finished.events = (afterInit 8 []).events := by
  decide

theorem witness_DecodingKeepsTheCommandWord : (0b01#2 : CommandWord) = initWord ∧ (0b11#2 : CommandWord) ≠ initWord := by
  decide

theorem witness_DecodeOfEncodeIsTheCommand :
    Instr.wf 4 (.init 15) = true ∧ Instr.wf 1 .byte = true ∧ encodeTableWord (.init 63) < 2 ^ 8 ∧
      encodeTableWord .byte < 2 ^ 2 := by decide

theorem witness_EncodeOfDecodeIsTheWires :
    (0b101#3 : BitVec (1 + 2)).extractLsb' 0 2 = initWord ∧ (0b111#3 : BitVec (1 + 2)).extractLsb' 0 2 ≠ initWord := by
  decide

theorem witness_StepRunsThePresentedCommand :
    { finished with events := [HostEvent.command 0b10#2 7] }.events = .command 0b10#2 7 :: [] ∧
      { finished with events := [HostEvent.present (.init 4)] }.events = HostEvent.present (.init 4) :: [] ∧
      decodeTableWord 8 3 = some .byte ∧ decodeTableWord 2 0 = some .hold := by decide

theorem witness_HostAccessesTouchOnlyTheByteWritten :
    finished.buf.wf = true ∧
      { finished with events := [.hostWrite 9 0x11#8] }.events = HostEvent.hostWrite 9 0x11#8 :: [] ∧
      { finished with events := [.hostRead 9] }.events = HostEvent.hostRead 9 :: [] ∧
      { finished with events := [.observe] }.events = HostEvent.observe :: [] := by decide

theorem witness_NothingPendingNothingHappens : finished.events = [] := rfl

theorem witness_EveryCommandAndEveryEventCompletes :
    { finished with events := [.observe] }.events = HostEvent.observe :: [] := rfl

theorem witness_ObservationIsTheWholeBlock :
    finished.observe = (st 0x0C51#16 0x04C9#16 0xE19E#16 0#1 0xE2#8 0#3 8 8 []).observe ∧ finished.observe.done = true := by
  decide

/-- Two generators that differ in every unsampled bit. -/
theorem witness_OnlyTheSampledBitsDecide :
    ∃ g h : Generator, g ≠ h ∧ g.t.getLsbD 0 = h.t.getLsbD 0 ∧ g.t.getLsbD 1 = h.t.getLsbD 1 ∧
      g.u.getLsbD 0 = h.u.getLsbD 0 ∧ g.u.getLsbD 1 = h.u.getLsbD 1 ∧ g.v.getLsbD 0 = h.v.getLsbD 0 :=
  ⟨⟨0xFFFD#16, 0xFFFE#16, 0xFFFF#16, 0#1⟩, ⟨0x0001#16, 0x0002#16, 0x0001#16, 1#1⟩, by decide⟩

theorem witness_EachRegisterShiftsWhenItsRuleSays :
    (0x2952#16 : Reg16).getLsbD 0 = false ∧ (0x2953#16 : Reg16).getLsbD 0 = true ∧
      (0x2953#16 : Reg16).getLsbD 0 = (0x0001#16 : Reg16).getLsbD 0 ∧
      (0x2953#16 : Reg16).getLsbD 0 ≠ (0xD9C2#16 : Reg16).getLsbD 0 := by decide

theorem witness_ShiftIsABijectionForTheMasks :
    (0x8000#16 : Reg16).getLsbD 15 = true ∧ (0xFFFE#16 : Reg16).getLsbD 0 = false ∧
      (0x8000#16 : Reg16).getLsbD 0 = false := by decide

theorem witness_SequenceOfTDependsOnTAlone :
    ∃ g h : Generator, g ≠ h ∧ g.t = h.t :=
  ⟨⟨0x2953#16, 0xD9C2#16, 0x3FF1#16, 1#1⟩, ⟨0x2953#16, 0x0000#16, 0x0001#16, 0#1⟩, by decide⟩

theorem witness_BitstepLosesNothing : bitstep Generator.reset = bitstep ⟨0x2953#16, 0xD9C2#16, 0x3FF1#16, 1#1⟩ := by
  decide

theorem witness_ZeroGeneratorStaysAndIsNeverEntered :
    (afterInit 8 []).t ≠ 0x0000#16 ∧
      ∃ s', step { afterInit 8 [] with events := [.command stepWord 0] } = .next s' :=
  ⟨by decide, _, rfl⟩

/-- The three branches of STEP, at counts 0, 6 and 7. -/
theorem witness_StepRunsOneBitstep :
    finished.pos = finished.len ∧
      ((afterInit 1 []).pos ≠ (afterInit 1 []).len ∧ (afterInit 1 []).nacc ≠ 7#3) ∧
      ((st 0 0 0 0 0 6#3 0 1 []).pos ≠ (st 0 0 0 0 0 6#3 0 1 []).len ∧ (st 0 0 0 0 0 6#3 0 1 []).nacc ≠ 7#3) ∧
      ((beforeBoundary 1 []).pos ≠ (beforeBoundary 1 []).len ∧ (beforeBoundary 1 []).nacc = 7#3) := by decide

theorem witness_StepFrame :
    (beforeBoundary 1 [(0, 0xFF#8)]).buf.wf = true ∧ (beforeBoundary 1 []).done = false ∧
      (beforeBoundary 1 []).atBoundary = true ∧ finished.done = true ∧ (afterInit 1 []).atBoundary = false ∧
      ∃ t, exec .step (beforeBoundary 1 [(0, 0xFF#8)]) = .next t :=
  ⟨by decide, by decide, by decide, by decide, by decide, _, rfl⟩

theorem witness_DoneGatesStepAndByte : finished.done = true ∧ State.reset.done = true := by decide

/-- A buffer with one byte left and one with two. -/
theorem witness_ByteInTheUsualCase :
    ((afterInit 1 []).nacc = 0#3 ∧ (afterInit 1 []).pos < (afterInit 1 []).len) ∧
      ((afterInit 2 []).nacc = 0#3 ∧ (afterInit 2 []).pos < (afterInit 2 []).len) ∧
      (0x89#8 : Byte) = (bitsteps 1 (afterInit 1 []).gen).x ++ (bitsteps 2 (afterInit 1 []).gen).x ++
        (bitsteps 3 (afterInit 1 []).gen).x ++ (bitsteps 4 (afterInit 1 []).gen).x ++
        (bitsteps 5 (afterInit 1 []).gen).x ++ (bitsteps 6 (afterInit 1 []).gen).x ++
        (bitsteps 7 (afterInit 1 []).gen).x ++ (bitsteps 8 (afterInit 1 []).gen).x := by decide

/-- Counts 0, 3 and 7. -/
theorem witness_ByteAcrossABoundary :
    (afterInit 2 []).pos + 1 < (afterInit 2 []).len ∧ (inFirstByte 2 []).pos + 1 < (inFirstByte 2 []).len ∧
      (beforeBoundary 2 []).pos + 1 < (beforeBoundary 2 []).len := by decide

theorem witness_ByteIntoTheEnd :
    ((afterInit 1 []).pos + 1 = (afterInit 1 []).len ∧ 8 = 8 - (afterInit 1 []).nacc.toNat) ∧
      ((inFirstByte 1 []).pos + 1 = (inFirstByte 1 []).len ∧ 5 = 8 - (inFirstByte 1 []).nacc.toNat) ∧
      ((beforeBoundary 1 []).pos + 1 = (beforeBoundary 1 []).len ∧ 1 = 8 - (beforeBoundary 1 []).nacc.toNat) := by
  decide

theorem witness_ByteFrame :
    (inFirstByte 1 [(0, 0xA5#8)]).buf.wf = true ∧ (inFirstByte 1 []).done = false ∧ finished.done = true ∧
      ∃ t, exec .byte (inFirstByte 1 [(0, 0xA5#8)]) = .next t :=
  ⟨by decide, by decide, by decide, _, rfl⟩

theorem witness_AccessesStayInsideTheBuffer :
    (beforeBoundary 1 []).pos ≤ (beforeBoundary 1 []).len ∧ (accesses .step (beforeBoundary 1 [])).length = 2 ∧
      (accesses .byte (inFirstByte 1 [])).length = 2 ∧ keepsInvocation (.init 3) = false := by decide

/-- At a boundary (V7, with the accesses its row gives), gated, and one bit-step before a boundary. -/
theorem witness_AccessesAccountForTheStorage :
    (beforeBoundary 1 []).done = false ∧ (beforeBoundary 1 []).atBoundary = true ∧ finished.done = true ∧
      (st 0 0 0 0 0 6#3 0 1 []).atBoundary = false ∧ (inFirstByte 1 []).done = false ∧
      accesses .step (beforeBoundary 8 []) = [.read 0 0x00#8, .write 0 0x89#8] ∧
      ∃ t, exec .byte (inFirstByte 1 [(0, 0xA5#8)]) = .next t :=
  ⟨by decide, by decide, by decide, by decide, by decide, by decide, _, rfl⟩

/-- P3's mixture on its two bytes, and an empty invocation. -/
theorem witness_InvocationAccessesEachByteOnceInOrder :
    (afterInit 2 [(0, 0xFF#8)]).buf.wf = true ∧
      (∀ i ∈ [Instr.step, .step, .step, .hold, .byte, .step, .step, .step, .step, .step], keepsInvocation i = true) ∧
      (∃ t, execAll (.init 2 :: [.step, .step, .step, .hold, .byte, .step, .step, .step, .step, .step])
        (afterInit 2 [(0, 0xFF#8)]) = .next t ∧ t.done = true) ∧
      ∃ t, execAll (.init 0 :: []) (afterInit 2 [(0, 0xFF#8)]) = .next t ∧ t.done = true :=
  ⟨by decide, by decide, ⟨_, rfl, by decide⟩, _, rfl, by decide⟩

/-- A state three bit-steps into an invocation meets the invariant. -/
theorem inFirstByte_inv : (inFirstByte 2 [(0, 0xFF#8)]).Inv :=
  ⟨⟨by decide, by decide⟩, by decide, by unfold State.AccIsRecent; decide, by decide⟩

theorem witness_EveryStepKeepsThePositionInvariant :
    ∃ s s' : State, s.Inv ∧ step s = .next s' :=
  ⟨_, _, inFirstByte_inv, rfl⟩

theorem witness_EachByteMeetsItsOwnKeystreamByte :
    (∀ i ∈ [Instr.step, .hold, .byte], keepsInvocation i = true) ∧ (inFirstByte 2 [(0, 0xFF#8)]).Inv :=
  ⟨by decide, inFirstByte_inv⟩

theorem witness_ApplyTransformsTheWholeBuffer : (afterInit 2 [(0, 0x11#8), (1, 0x22#8)]).buf.wf = true := by decide

theorem witness_ApplyTwiceRestoresTheBuffer : (afterInit 2 [(0, 0x11#8), (1, 0x22#8)]).buf.wf = true := by decide

/-- Three STEPs, a BYTE and five STEPs finish a buffer of two bytes (P3). -/
theorem witness_MixedCommandsEqualApply :
    (∀ i ∈ [Instr.step, .step, .step, .hold, .byte, .step, .step, .step, .step, .step], keepsInvocation i = true) ∧
      ∃ t, execAll (.init 2 :: [.step, .step, .step, .hold, .byte, .step, .step, .step, .step, .step]) finished =
        .next t ∧ t.done = true :=
  ⟨by decide, _, rfl, by decide⟩

theorem witness_PrefixDescrambles :
    (afterInit 2 [(0, 0x11#8), (1, 0x22#8)]).buf.wf = true ∧ 0 ≤ 2 ∧ 1 ≤ 2 ∧ 2 ≤ 2 := by decide

theorem witness_KeystreamFollowsThePosition : 1 < ([0x33#8, 0x44#8] : List Byte).length := by decide

theorem witness_PayloadBehindAPrefix :
    Memory.wf [(0, 0x11#8), (2, 0xAA#8)] = true ∧ Memory.wf [(2, 0xAA#8)] = true ∧
      ∀ j : Nat, j < 1 → Memory.read [(0, 0x11#8), (2, 0xAA#8)] (2 + j) = Memory.read [(2, 0xAA#8)] (2 + j) := by decide

theorem witness_RestartIsRecoveredByApplyOverThePrefix :
    finished.buf.wf = true ∧ (∀ i ∈ [Instr.byte, .step], keepsInvocation i = true) ∧
      ∃ u, execAll (.init 4 :: [.byte, .step]) finished = .next u ∧ u.pos = 1 :=
  ⟨by decide, by decide, _, rfl, by decide⟩

theorem witness_RegistersDoNotDependOnTheData :
    (inFirstByte 2 [(0, 0xFF#8)]).SameRegisters (inFirstByte 2 []) ∧ inFirstByte 2 [(0, 0xFF#8)] ≠ inFirstByte 2 [] :=
  ⟨rfl, by decide⟩

/-- One event of each kind, with the step it leads to. -/
theorem witness_OnlyInitAndResetRestart :
    (∃ s', step { inFirstByte 2 [] with events := [.command byteWord 0] } = .next s') ∧
      HostEvent.restarts (.command byteWord 0) = false ∧
      (∃ s', step { inFirstByte 2 [] with events := [.command initWord 3] } = .next s') ∧
      HostEvent.restarts (.command initWord 3) = true :=
  ⟨⟨_, rfl⟩, by decide, ⟨_, rfl⟩, by decide⟩

theorem witness_EveryStepKeepsPositionInRange :
    ∃ s s' : State, s.InRange ∧ step s = .next s' ∧ s.events ≠ [] :=
  ⟨{ beforeBoundary 1 [] with events := [.command stepWord 0] }, _, ⟨by decide, by decide⟩, rfl, by decide⟩

theorem witness_DoneStaysUntilANonemptyInit :
    ∃ s s' : State, s.done = true ∧ step s = .next s' ∧ s'.done = false :=
  ⟨{ finished with events := [.command initWord 1] }, _, by decide, rfl, by decide⟩

theorem witness_EveryStepKeepsTheStorageCanonical :
    ∃ s s' : State, s.buf.wf = true ∧ step s = .next s' ∧ s'.buf ≠ s.buf :=
  ⟨{ beforeBoundary 1 [(0, 0x89#8)] with events := [.command stepWord 0] }, _, by decide, rfl, by decide⟩

/-- The largest length of a four-bit block. -/
theorem witness_PositionAndLengthFitTheirRegisters :
    ∃ s s' : State, s.Fits 4 ∧ (∀ e ∈ s.events.head?, e.fits 4 = true) ∧ step s = .next s' ∧ s'.pos = 15 := by
  refine ⟨{ st 0x8965#16 0x66B0#16 0x5614#16 0#1 0x44#8 7#3 14 15 [] with events := [.command stepWord 0] }, _,
    ⟨by decide, by decide⟩, ?_, rfl, by decide⟩
  intro e he
  cases he
  decide

/-- The last byte of the largest buffer of a one-bit block. -/
theorem witness_EveryAddressWidthAgreesWithTheMachine :
    (0#1 : BitVec 1).toNat ≤ (1#1 : BitVec 1).toNat ∧ (1#1 : BitVec 1).toNat ≤ (1#1 : BitVec 1).toNat := by decide

end Sys2Proof.Tests
end

/-! PROOFS. The decoder's table (30_encoding.md R50 to R53): one equation per word, the list of all words, and
the two statements that follow from them. -/

namespace Sys2Proof

/-! ## One equation per row of the table of R51 -/

@[simp] theorem decode_holdWord (n : Nat) : decode holdWord n = .hold := rfl

@[simp] theorem decode_initWord (n : Nat) : decode initWord n = .init n := rfl

@[simp] theorem decode_stepWord (n : Nat) : decode stepWord n = .step := rfl

@[simp] theorem decode_byteWord (n : Nat) : decode byteWord n = .byte := rfl

/-- The table has a row for every word: no encoding is illegal or reserved (R53). -/
theorem commandWord_cases (cmd : CommandWord) :
    cmd = holdWord ∨ cmd = initWord ∨ cmd = stepWord ∨ cmd = byteWord := by
  revert cmd
  decide

/-- Decoding loses no bit of the word, so no two words share a command (R50, R51). -/
@[simp] theorem opcode_decode (cmd : CommandWord) (n : Nat) : opcode (decode cmd n) = cmd := by
  obtain rfl | rfl | rfl | rfl := commandWord_cases cmd <;> rfl

/-- INIT takes the operand over unchanged (R52). -/
theorem operand_decode_initWord (n : Nat) : operand (decode initWord n) = n := rfl

/-- HOLD, STEP and BYTE ignore `len_in` (R52). -/
theorem decode_eq_of_ne_initWord {cmd : CommandWord} (h : cmd ≠ initWord) (n m : Nat) :
    decode cmd n = decode cmd m := by
  obtain rfl | rfl | rfl | rfl := commandWord_cases cmd
  · rw [decode_holdWord, decode_holdWord]
  · exact absurd rfl h
  · rw [decode_stepWord, decode_stepWord]
  · rw [decode_byteWord, decode_byteWord]

/-! ## The statements -/

/-- Settles O8, by the four rows of the decoder's table. -/
theorem eachWordSelectsItsCommand : Obligations.EachWordSelectsItsCommand := fun n =>
  ⟨decode_holdWord n, decode_initWord n, decode_stepWord n, decode_byteWord n⟩

/-- Settles O9, by the cases of the word: decoding keeps it, and only INIT's row reads the operand. -/
theorem decodingKeepsTheCommandWord : Obligations.DecodingKeepsTheCommandWord := by
  intro cmd n m
  refine ⟨opcode_decode cmd n, ?_, fun h => decode_eq_of_ne_initWord h n m⟩
  rintro rfl
  exact operand_decode_initWord n

end Sys2Proof

/-! PROOFS. The control commands HOLD and INIT (40_control.md R65, R66): what each does, what it accesses on the
buffer port, and the two statements that follow. -/

namespace Sys2Proof.Machine

/-! ## What HOLD and INIT do and access -/

@[simp] theorem exec_hold (s : State) : exec .hold s = .next s := rfl

@[simp] theorem accesses_hold (s : State) : accesses .hold s = [] := rfl

@[simp] theorem exec_init (n : Nat) (s : State) : exec (.init n) s = .next (s.startFresh n) := rfl

@[simp] theorem accesses_init (n : Nat) (s : State) : accesses (.init n) s = [] := rfl

/-- A fresh start sets all eight registers, with the constants of R14 written out, and keeps the storage and
what is pending. -/
theorem State.startFresh_eq (s : State) (n : Nat) :
    s.startFresh n =
      { t := 0x2953#16, u := 0xD9C2#16, v := 0x3FF1#16, x := 1#1, acc := 0x00#8, nacc := 0#3,
        pos := 0, len := n, buf := s.buf, events := s.events } := rfl

/-- A fresh start is over at once exactly when its buffer is empty. -/
@[simp] theorem State.startFresh_done (s : State) (n : Nat) : (s.startFresh n).done = (n == 0) := by
  rw [State.done, State.startFresh_pos, State.startFresh_len, BEq.comm]

/-! ## The statements -/

/-- Settles O3, by HOLD's two equations. -/
theorem holdChangesNothing : Obligations.HoldChangesNothing := fun s =>
  ⟨exec_hold s, accesses_hold s⟩

/-- Settles O5: the state INIT answers is the fresh start at its operand. -/
theorem initStartsFromFreshState : Obligations.InitStartsFromFreshState := fun n s =>
  ⟨s.startFresh n, exec_init n s, s.startFresh_eq n, s.startFresh_done n, accesses_init n s⟩

end Sys2Proof.Machine

/-! PROOFS. The bit-step (41_keystream_step.md R70 to R78): the five sampled bits, when each register shifts, the
shift bit by bit, what the accumulator holds, and the six statements that follow. -/

namespace Sys2Proof.Machine

/-! ## The sampled bits -/

/-- Two one-bit samples agree exactly when the bits of the registers do. -/
theorem bitOf_eq_bitOf_iff (r r' : Reg16) (i j : Nat) :
    bitOf r i = bitOf r' j ↔ r.getLsbD i = r'.getLsbD j := by
  cases hr : r'.getLsbD j with
  | true => rw [(bitOf_eq_one r' j).2 hr, bitOf_eq_one]
  | false => rw [(bitOf_eq_zero r' j).2 hr, bitOf_eq_zero]

/-- Flipping t1 flips d: t1 enters the formula of R71 in one XOR only. -/
theorem Sampled.delta_not_t1 (t0 t1 u0 u1 v0 : Bit) :
    Sampled.delta ⟨t0, ~~~t1, u0, u1, v0⟩ = ~~~Sampled.delta ⟨t0, t1, u0, u1, v0⟩ := by
  simp only [Sampled.delta, BitVec.not_xor_left]

/-- The table of d that R71 derives, row by row. -/
theorem Sampled.delta_table (t0 t1 u0 u1 v0 : Bit) :
    ([0, 1, 1, 0, 1, 1, 0, 0, 1, 0, 0, 1, 0, 0, 1, 1,
      1, 1, 1, 1, 1, 0, 1, 0, 0, 0, 0, 0, 0, 1, 0, 1] : List Nat).getD
      (16 * t0.toNat + 8 * t1.toNat + 4 * u0.toNat + 2 * u1.toNat + v0.toNat) 2 =
    (Sampled.delta ⟨t0, t1, u0, u1, v0⟩).toNat := by
  revert t0 t1 u0 u1 v0
  decide

/-! ## What one bit-step does to each register -/

theorem bitstep_t (g : Generator) : (bitstep g).t = lfsr g.t Config.tMask := rfl

theorem bitstep_x (g : Generator) : (bitstep g).x = g.x ^^^ g.sample.delta := rfl

/-- What a bit-step changes in X is d, a function of the sampled bits. -/
theorem bitstep_x_xor (g : Generator) : (bitstep g).x ^^^ g.x = g.sample.delta := by
  rw [bitstep_x, BitVec.xor_comm g.x, BitVec.xor_assoc, BitVec.xor_self, BitVec.xor_zero]

theorem bitstep_u_shifts {g : Generator} (h : g.t.getLsbD 0 = false) :
    (bitstep g).u = lfsr g.u Config.uMask := by
  rw [bitstep_u_eq, if_pos ((bitOf_eq_zero _ _).2 h)]

theorem bitstep_u_holds {g : Generator} (h : g.t.getLsbD 0 = true) : (bitstep g).u = g.u := by
  rw [bitstep_u_eq, (bitOf_eq_one _ _).2 h, if_neg (by decide)]

theorem bitstep_v_shifts {g : Generator} (h : g.t.getLsbD 0 = g.u.getLsbD 0) :
    (bitstep g).v = lfsr g.v Config.vMask := by
  rw [bitstep_v_eq, if_pos ((bitOf_eq_bitOf_iff _ _ _ _).2 h)]

theorem bitstep_v_holds {g : Generator} (h : g.t.getLsbD 0 ≠ g.u.getLsbD 0) : (bitstep g).v = g.v := by
  rw [bitstep_v_eq, if_neg (mt (bitOf_eq_bitOf_iff _ _ _ _).1 h)]

/-- T's next value is read off T, so T's sequence is, by induction over the bit-steps. -/
theorem bitsteps_t_congr {g h : Generator} (e : g.t = h.t) (k : Nat) : (bitsteps k g).t = (bitsteps k h).t := by
  induction k with
  | zero => exact e
  | succ k ih => rw [bitsteps_succ, bitsteps_succ, bitstep_t, bitstep_t, ih]

/-! ## The shift, bit by bit -/

/-- The right shift moves bit i + 1 to bit i; bit 15 takes the fill bit 0 of the spec's decision D6. -/
theorem getLsbD_shiftRight_one (r : Reg16) {i : Nat} (hi : i < 16) :
    (r >>> 1).getLsbD i = (decide (i < 15) && r.getLsbD (i + 1)) := by
  rw [BitVec.getLsbD_ushiftRight, Nat.add_comm 1 i]
  by_cases h : i < 15
  · rw [decide_eq_true h, Bool.true_and]
  · rw [decide_eq_false h, Bool.false_and, BitVec.getLsbD_of_ge _ _ (by omega)]

/-- The mask is XORed in when the bit shifted out is 1 (R73). -/
theorem lfsr_getLsbD (r m : Reg16) {i : Nat} (hi : i < 16) :
    (lfsr r m).getLsbD i = ((decide (i < 15) && r.getLsbD (i + 1)) ^^ (r.getLsbD 0 && m.getLsbD i)) := by
  rw [lfsr, BitVec.getLsbD_xor, getLsbD_shiftRight_one r hi]
  cases h : r.getLsbD 0 with
  | true => rw [if_pos ((bitOf_eq_one r 0).2 h), Bool.true_and]
  | false => rw [(bitOf_eq_zero r 0).2 h, if_neg (by decide), BitVec.getLsbD_zero, Bool.false_and]

/-! ## The accumulator -/

/-- Eight bit-steps leave their eight keystream bits in the accumulator, the first in bit 7 (R78). -/
theorem accSteps_eight (g : Generator) (acc : Byte) :
    accSteps 8 g acc = (bitsteps 1 g).x ++ (bitsteps 2 g).x ++ (bitsteps 3 g).x ++ (bitsteps 4 g).x ++
      (bitsteps 5 g).x ++ (bitsteps 6 g).x ++ (bitsteps 7 g).x ++ (bitsteps 8 g).x :=
  shiftIn_eight acc _ _ _ _ _ _ _ _

/-- From the eighth bit-step on the accumulator has forgotten what it started from. -/
theorem accSteps_congr_of_le {k : Nat} (hk : 8 ≤ k) (g : Generator) (a b : Byte) :
    accSteps k g a = accSteps k g b := by
  induction k, hk using Nat.le_induction with
  | base => rw [accSteps_eight, accSteps_eight]
  | succ k _ ih => rw [accSteps_succ, accSteps_succ, ih]

/-! ## The statements -/

/-- Settles O20: the formula and X' are the definitions' own, the table is checked row by row, and the flip with
t1 is `Sampled.delta_not_t1`. -/
theorem keystreamBitFollowsTheFormulaAndTheTable : Obligations.KeystreamBitFollowsTheFormulaAndTheTable :=
  ⟨fun t0 t1 u0 u1 v0 =>
    ⟨rfl, Sampled.delta_not_t1 t0 t1 u0 u1 v0, Sampled.delta_table t0 t1 u0 u1 v0⟩, bitstep_x⟩

/-- Settles O21: the two generators take the same sample, so d is the same, and both enables are read off the
sampled bits t0 and u0. -/
theorem onlyTheSampledBitsDecide : Obligations.OnlyTheSampledBitsDecide := by
  intro g h ht0 ht1 hu0 hu1 hv0
  have hsample : g.sample = h.sample := by
    simp only [Generator.sample, Sampled.mk.injEq, bitOf_eq_bitOf_iff]
    exact ⟨ht0, ht1, hu0, hu1, hv0⟩
  refine ⟨?_, ?_, ?_⟩
  · rw [bitstep_x_xor, bitstep_x_xor, hsample]
  · cases hg : g.t.getLsbD 0 with
    | true => exact .inl ⟨bitstep_u_holds hg, bitstep_u_holds (ht0 ▸ hg)⟩
    | false => exact .inr ⟨bitstep_u_shifts hg, bitstep_u_shifts (ht0 ▸ hg)⟩
  · by_cases hg : g.t.getLsbD 0 = g.u.getLsbD 0
    · exact .inr ⟨bitstep_v_shifts hg, bitstep_v_shifts (by rw [← ht0, ← hu0, hg])⟩
    · exact .inl ⟨bitstep_v_holds hg, bitstep_v_holds (by rwa [← ht0, ← hu0])⟩

/-- Settles O22, by the equation of each register in each of its cases. -/
theorem eachRegisterShiftsWhenItsRuleSays : Obligations.EachRegisterShiftsWhenItsRuleSays := fun g =>
  ⟨bitstep_t g, bitstep_u_shifts, bitstep_u_holds, bitstep_v_shifts, bitstep_v_holds⟩

/-- Settles O23: the shifted register and the mask bit by bit. -/
theorem shiftMovesEveryBitDownAndXorsTheMask : Obligations.ShiftMovesEveryBitDownAndXorsTheMask :=
  fun r m _ hi => lfsr_getLsbD r m hi

/-- Settles O25, by T's update and an induction over the bit-steps. -/
theorem sequenceOfTDependsOnTAlone : Obligations.SequenceOfTDependsOnTAlone :=
  ⟨bitstep_t, fun k _ _ e => bitsteps_t_congr e k⟩

/-- Settles O28: the shift is the definition's own, eight shifts replace all eight bits, and later ones keep the
two accumulators equal. -/
theorem accumulatorHoldsTheLastEightBits : Obligations.AccumulatorHoldsTheLastEightBits :=
  ⟨fun _ _ => rfl, accSteps_eight, fun _ g a b hk => accSteps_congr_of_le hk g a b⟩

end Sys2Proof.Machine

/-! PROOFS. The command STEP (41_keystream_step.md R80, R81), the gate of STEP and BYTE, the registers' independence
of the data (R82), and the three statements that follow. -/

namespace Sys2Proof.Machine

/-! ## What STEP and BYTE do and access -/

@[simp] theorem exec_step (s : State) : exec .step s = .next s.oneStep := rfl

@[simp] theorem exec_byte (s : State) : exec .byte s = .next (s.steps 8) := rfl

@[simp] theorem accesses_step (s : State) : accesses .step s = s.stepAccesses := rfl

@[simp] theorem accesses_byte (s : State) : accesses .byte s = s.stepsAccesses 8 := rfl

theorem State.stepAccesses_of_done {s : State} (h : s.done = true) : s.stepAccesses = [] := if_pos h

/-- Inside a byte the counter goes up by one (R79). -/
theorem nextCount_eq_of_ne {n : Count} (h : n ≠ 7#3) : nextCount n = n + 1#3 := if_neg h

/-- Inside a byte only the generator, ACC and the counter move (R79, R80). -/
theorem State.shiftBit_eq_of_ne {s : State} (h : s.nacc ≠ 7#3) :
    s.shiftBit = { s.setGen (bitstep s.gen) with
      acc := shiftIn s.acc (bitstep s.gen).x, nacc := s.nacc + 1#3 } := by
  rw [← nextCount_eq_of_ne h]
  rfl

/-- At the boundary the counter goes back to 0 and the applier uses the accumulator after the shift and the POS
before the increment (R79, R80). -/
theorem State.shiftBit_xorByte_advance_eq {s : State} (h : s.nacc = 7#3) :
    s.shiftBit.xorByte.advance =
      { s.shiftBit with nacc := 0#3, pos := s.pos + 1,
                        buf := s.buf.write s.pos (s.buf.read s.pos ^^^ s.shiftBit.acc) } := by
  have hn : nextCount s.nacc = 0#3 := by rw [h, nextCount_seven]
  rw [← hn]
  rfl

/-! ## Registers that agree stay in agreement, whatever the buffer holds -/

theorem State.sameRegisters_iff (s s' : State) :
    s.SameRegisters s' ↔
      s.gen = s'.gen ∧ s.acc = s'.acc ∧ s.nacc = s'.nacc ∧ s.pos = s'.pos ∧ s.len = s'.len := by
  simp only [State.SameRegisters, State.observe, State.gen, State.done, Observation.mk.injEq, Generator.mk.injEq]
  constructor
  · rintro ⟨ht, hu, hv, hx, ha, hn, hp, hl, -⟩
    exact ⟨⟨ht, hu, hv, hx⟩, ha, hn, hp, hl⟩
  · rintro ⟨⟨ht, hu, hv, hx⟩, ha, hn, hp, hl⟩
    exact ⟨ht, hu, hv, hx, ha, hn, hp, hl, by rw [hp, hl]⟩

theorem State.SameRegisters.shiftBit {s s' : State} (h : s.SameRegisters s') :
    s.shiftBit.SameRegisters s'.shiftBit := by
  rw [State.sameRegisters_iff] at h ⊢
  obtain ⟨hg, ha, hn, hp, hl⟩ := h
  simp only [State.shiftBit_gen, State.shiftBit_acc, State.shiftBit_nacc, State.shiftBit_pos, State.shiftBit_len]
  exact ⟨by rw [hg], by rw [ha, hg], by rw [hn], hp, hl⟩

/-- The applier writes no register but POS, and moves it by one. -/
theorem State.SameRegisters.xorByte_advance {s s' : State} (h : s.SameRegisters s') :
    s.xorByte.advance.SameRegisters s'.xorByte.advance := by
  rw [State.sameRegisters_iff] at h ⊢
  obtain ⟨hg, ha, hn, hp, hl⟩ := h
  exact ⟨hg, ha, hn, congrArg (· + 1) hp, hl⟩

/-- The gate and the boundary are read off the registers, so both states take the same branch. -/
theorem State.SameRegisters.oneStep {s s' : State} (h : s.SameRegisters s') :
    s.oneStep.SameRegisters s'.oneStep := by
  obtain ⟨-, -, hn, hp, hl⟩ := (State.sameRegisters_iff s s').1 h
  rcases s.oneStep_cases with ⟨hd, hs⟩ | ⟨hd, hb, hs⟩ | ⟨hd, hb, hs⟩
  · rw [hs, State.oneStep_of_done (by rw [← hp, ← hl, hd])]
    exact h
  · rw [hs, State.oneStep_inside (by rwa [← hp, ← hl]) (hn ▸ hb)]
    exact h.shiftBit
  · rw [hs, State.oneStep_boundary (by rwa [← hp, ← hl]) (hn ▸ hb)]
    exact h.shiftBit.xorByte_advance

theorem State.SameRegisters.steps {s s' : State} (h : s.SameRegisters s') (k : Nat) :
    (s.steps k).SameRegisters (s'.steps k) := by
  induction k generalizing s s' with
  | zero => exact h
  | succ k ih => exact ih h.oneStep

/-- Two fresh starts agree, whatever stood before. -/
theorem State.startFresh_sameRegisters (s s' : State) (n : Nat) :
    (s.startFresh n).SameRegisters (s'.startFresh n) := rfl

/-- One command from states that agree on the registers leads to such states again. -/
theorem exec_sameRegisters (i : Instr) {s s' : State} (h : s.SameRegisters s') :
    ∃ t t' : State, exec i s = .next t ∧ exec i s' = .next t' ∧ t.SameRegisters t' := by
  cases i with
  | hold => exact ⟨s, s', exec_hold s, exec_hold s', h⟩
  | init n => exact ⟨_, _, exec_init n s, exec_init n s', State.startFresh_sameRegisters s s' n⟩
  | step => exact ⟨_, _, exec_step s, exec_step s', h.oneStep⟩
  | byte => exact ⟨_, _, exec_byte s, exec_byte s', h.steps 8⟩

/-- A sequence goes on from where its first command led. -/
theorem execAll_cons_of_next {i : Instr} {s t : State} (h : exec i s = .next t) (is : List Instr) :
    execAll (i :: is) s = execAll is t := by
  simp only [execAll, h]

/-! ## The statements -/

/-- Settles O29, by the three branches of a STEP, each with its state written out. -/
theorem stepRunsOneBitstep : Obligations.StepRunsOneBitstep := by
  intro s
  refine ⟨fun hd => ?_, fun hp hn => ?_, fun hp hn => ?_⟩
  · rw [exec_step, State.oneStep_of_done hd]
  · rw [exec_step, State.oneStep_inside hp hn, State.shiftBit_eq_of_ne hn]
    rfl
  · rw [exec_step, State.oneStep_boundary hp hn, State.shiftBit_xorByte_advance_eq hn]
    rfl

/-- Settles O31: at POS = LEN a STEP is the identity without accesses, and BYTE is eight of them. -/
theorem doneGatesStepAndByte : Obligations.DoneGatesStepAndByte := by
  intro s hd
  have hp : s.pos = s.len := (State.done_iff s).1 hd
  refine ⟨?_, ?_, exec_hold s, ?_, ?_⟩
  · rw [exec_step, exec_hold, State.oneStep_of_done hp]
  · rw [exec_byte, exec_hold, State.steps_of_done hp]
  · rw [accesses_step, State.stepAccesses_of_done hd]
  · rw [accesses_byte, State.stepsAccesses_of_done hp]

/-- Settles O52, by induction over the commands: each one keeps two states' registers in agreement. -/
theorem registersDoNotDependOnTheData : Obligations.RegistersDoNotDependOnTheData := by
  intro is
  induction is with
  | nil => exact fun s s' h => ⟨s, s', rfl, rfl, h⟩
  | cons i is ih =>
    intro s s' h
    obtain ⟨u, u', hu, hu', huu⟩ := exec_sameRegisters i h
    rw [execAll_cons_of_next hu, execAll_cons_of_next hu']
    exact ih u u' huu

end Sys2Proof.Machine

/-! PROOFS. The command BYTE as STEPs (42_byte_apply.md R87) and the absence of error conditions (R91,
60_exceptions.md R100): one completion lemma per layer, and the two statements that follow. -/

namespace Sys2Proof.Machine

/-! ## Every layer completes -/

theorem safe_next (s : State) : Safe (.next s) := ⟨s, rfl⟩

theorem exec_safe (i : Instr) (s : State) : Safe (exec i s) := by
  cases i with
  | hold => exact ⟨s, exec_hold s⟩
  | init n => exact ⟨s.startFresh n, exec_init n s⟩
  | step => exact ⟨s.oneStep, exec_step s⟩
  | byte => exact ⟨s.steps 8, exec_byte s⟩

theorem runEvent_safe (e : HostEvent) (s : State) : Safe (State.runEvent e s) := by
  cases e with
  | reset => exact safe_next s.resetEvent
  | command cmd lenIn => exact exec_safe (decode cmd lenIn) s
  | resetWithCommand _ _ => exact safe_next s.resetEvent
  | hostWrite a b => exact safe_next (s.hostWrite a b)
  | hostRead _ => exact safe_next s
  | observe => exact safe_next s

/-- A step runs the oldest pending event, with the later ones still pending (20_memory.md R40). -/
theorem step_of_events {s : State} {e : HostEvent} {es : List HostEvent} (h : s.events = e :: es) :
    step s = State.runEvent e { s with events := es } := by
  simp only [step, State.takeEvent, h]

/-! ## STEP repeated -/

/-- `k` STEP commands are `k` STEPs inside one event, each with its own gate. -/
theorem execAll_repeated_step (k : Nat) (s : State) : execAll (repeated k .step) s = .next (s.steps k) := by
  induction k generalizing s with
  | zero => rfl
  | succ k ih =>
    calc execAll (repeated (k + 1) .step) s
        = execAll (repeated k .step) s.oneStep := execAll_cons_of_next (exec_step s) _
      _ = .next (s.oneStep.steps k) := ih s.oneStep
      _ = .next (s.steps (k + 1)) := by rw [State.steps_succ]

/-! ## The statements -/

/-- Settles O18: every command completes, so every event does, and a step is its oldest event. -/
theorem everyCommandAndEveryEventCompletes : Obligations.EveryCommandAndEveryEventCompletes := by
  refine ⟨exec_safe, fun s e es h => ?_⟩
  rw [step_of_events h]
  exact runEvent_safe e { s with events := es }

/-- Settles O32: BYTE's meaning is eight STEPs, and so is the sequence of eight STEP commands. -/
theorem byteIsEightSteps : Obligations.ByteIsEightSteps := fun s =>
  (exec_byte s).trans (execAll_repeated_step 8 s).symm

end Sys2Proof.Machine

/-! PROOFS. DONE as the level flag the host polls and reset beside a command (60_exceptions.md R101, R102): what one
command and one event can do to DONE, and the two statements that follow. -/

namespace Sys2Proof.Machine

/-! ## What can end DONE -/

/-- At DONE every command but INIT is gated or does nothing (41_keystream_step.md R81). -/
theorem exec_of_done {i : Instr} {s : State} (hi : keepsInvocation i = true) (hd : s.done = true) :
    exec i s = .next s := by
  rw [exec_keeps hi, State.steps_of_done ((State.done_iff s).1 hd)]

/-- A command leaves DONE at 1 unless it is an INIT with a non-zero length. -/
theorem exec_done_or_init {i : Instr} {s s' : State} (hd : s.done = true) (h : exec i s = .next s') :
    s'.done = true ∨ ∃ n, n ≠ 0 ∧ i = .init n := by
  cases hi : keepsInvocation i with
  | true =>
    cases (exec_of_done hi hd).symm.trans h
    exact .inl hd
  | false =>
    cases i with
    | init n =>
      cases (exec_init n s).symm.trans h
      cases n with
      | zero => exact .inl (s.startFresh_done 0)
      | succ n => exact .inr ⟨n + 1, n.succ_ne_zero, rfl⟩
    | hold => cases hi
    | step => cases hi
    | byte => cases hi

/-- Only INIT's word decodes to INIT, with the operand as it stands on the port (30_encoding.md R51, R52). -/
theorem decode_eq_init_iff {cmd : CommandWord} {lenIn n : Nat} :
    decode cmd lenIn = .init n ↔ cmd = initWord ∧ lenIn = n := by
  constructor
  · intro h
    obtain rfl : cmd = initWord := by rw [← opcode_decode cmd lenIn, h, opcode]
    exact ⟨rfl, Instr.init.inj h⟩
  · rintro ⟨rfl, rfl⟩
    exact decode_initWord lenIn

/-- An event leaves DONE at 1 unless it presents an INIT with a non-zero length: a reset ends in DONE = 1, and the
host's own accesses write no register. -/
theorem runEvent_done_or_init {e : HostEvent} {s s' : State} (hd : s.done = true)
    (h : State.runEvent e s = .next s') :
    s'.done = true ∨ ∃ n, n ≠ 0 ∧ e = .command initWord n := by
  cases e with
  | reset => cases h; exact .inl (s.startFresh_done 0)
  | resetWithCommand _ _ => cases h; exact .inl (s.startFresh_done 0)
  | hostWrite _ _ => cases h; exact .inl hd
  | hostRead _ => cases h; exact .inl hd
  | observe => cases h; exact .inl hd
  | command cmd lenIn =>
    refine (exec_done_or_init hd h).imp_right ?_
    rintro ⟨n, hn, hdec⟩
    obtain ⟨rfl, rfl⟩ := decode_eq_init_iff.1 hdec
    exact ⟨lenIn, hn, rfl⟩

/-- The command beside the reset plays no part (60_exceptions.md R102). -/
theorem runEvent_resetWithCommand (cmd : CommandWord) (lenIn : Nat) (s : State) :
    State.runEvent (.resetWithCommand cmd lenIn) s = State.runEvent .reset s := rfl

/-! ## The statements -/

/-- Settles O56: a step that ends DONE took an event, and only an INIT with a non-zero length can end DONE. -/
theorem doneStaysUntilANonemptyInit : Obligations.DoneStaysUntilANonemptyInit := by
  intro s s' hd h hs'
  rcases step_cases h with ⟨-, rfl⟩ | ⟨e, es, he, hrun⟩
  · exact absurd hd (Bool.eq_false_iff.1 hs')
  · rcases runEvent_done_or_init (s := { s with events := es }) hd hrun with hdone | ⟨n, hn, rfl⟩
    · exact absurd hdone (Bool.eq_false_iff.1 hs')
    · exact ⟨n, es, hn, he⟩

/-- Settles O15: both steps take their oldest event, and the two events do the same. -/
theorem resetWinsOverACommand : Obligations.ResetWinsOverACommand := by
  intro s cmd lenIn es
  rw [step_of_events rfl, step_of_events rfl, runEvent_resetWithCommand]

end Sys2Proof.Machine

/-! PROOFS. The reset event (70_reset_and_hazards.md R120, R121): what it and a presented command do in one step, and
the two statements that follow. -/

namespace Sys2Proof.Machine

/-! ## One event: a reset, a presented command -/

/-- A reset starts afresh with an empty buffer (R120). -/
theorem runEvent_reset (s : State) : State.runEvent .reset s = .next (s.startFresh 0) := rfl

/-- The port carries every command without loss (30_encoding.md R51, R52). -/
theorem decode_encode (i : Instr) : decode (encode i).1 (encode i).2 = i := by
  cases i with
  | hold => exact decode_holdWord 0
  | init n => exact decode_initWord n
  | step => exact decode_stepWord 0
  | byte => exact decode_byteWord 0

/-- Presenting a command runs it. -/
theorem runEvent_present (i : Instr) (s : State) : State.runEvent (HostEvent.present i) s = exec i s := by
  rw [HostEvent.present, State.runEvent, decode_encode]

/-! ## The statements -/

/-- Settles O1: the step answers the fresh start with an empty buffer, and its DONE gates STEP and BYTE. -/
theorem resetEventPutsEveryRegisterAtItsResetValue :
    Obligations.ResetEventPutsEveryRegisterAtItsResetValue := by
  intro s es h
  have hstep : step s = .next (State.startFresh { s with events := es } 0) := by
    rw [step_of_events h, runEvent_reset]
  have hdone : (State.startFresh { s with events := es } 0).done = true := State.startFresh_done _ 0
  exact ⟨_, hstep, State.startFresh_eq _ 0, hdone, exec_of_done rfl hdone, exec_of_done rfl hdone⟩

/-- Settles O7: the reset event and INIT 0 both start afresh with an empty buffer. -/
theorem resetEventEqualsInitZero : Obligations.ResetEventEqualsInitZero := by
  refine ⟨fun s => ?_, fun s es => ?_⟩
  · rw [exec_init, State.resetEvent_eq]
  · rw [step_of_events rfl, step_of_events rfl, runEvent_reset, runEvent_present, exec_init]

end Sys2Proof.Machine

/-! PROOFS. The encodings (30_encoding.md sections 1 to 3): what a command's word and operand are read back as on the
wires of a block and in the numbering of the opcode table, and the two statements that follow. -/

namespace Sys2Proof

/-! ## The wires of a block -/

@[simp] theorem encodeWires_word (aw : Nat) (i : Instr) : (encodeWires aw i).extractLsb' 0 2 = opcode i :=
  BitVec.extractLsb'_append_eq_right

@[simp] theorem encodeWires_operand (aw : Nat) (i : Instr) :
    (encodeWires aw i).extractLsb' 2 aw = BitVec.ofNat aw (operand i) :=
  BitVec.extractLsb'_append_eq_left

/-- A well-formed command's operand is a value its wires carry (R52). -/
theorem operand_lt_of_wf {aw : Nat} {i : Instr} (h : i.wf aw = true) : operand i < 2 ^ aw := by
  cases i with
  | hold => exact Nat.two_pow_pos aw
  | init n => exact of_decide_eq_true (Bool.and_eq_true_iff.1 h).2
  | step => exact Nat.two_pow_pos aw
  | byte => exact Nat.two_pow_pos aw

theorem decodeWires_encodeWires {aw : Nat} {i : Instr} (h : i.wf aw = true) :
    decodeWires aw (encodeWires aw i) = i := by
  rw [decodeWires, encodeWires_word, encodeWires_operand, BitVec.toNat_ofNat, Nat.mod_eq_of_lt (operand_lt_of_wf h)]
  exact Machine.decode_encode i

/-- Every word with an operand that fits is a command the block can be given (R52, R53). -/
theorem decode_wf {aw n : Nat} (haw : 1 ≤ aw) (hn : n < 2 ^ aw) (cmd : CommandWord) :
    (decode cmd n).wf aw = true := by
  have hl : legalWidth aw = true := decide_eq_true haw
  obtain rfl | rfl | rfl | rfl := commandWord_cases cmd
  · exact hl
  · exact Bool.and_eq_true_iff.2 ⟨hl, decide_eq_true hn⟩
  · exact hl
  · exact hl

/-- What decoding puts on the operand wires again: INIT's operand, zeros beside any other word (log entry 8). -/
theorem operand_decode (cmd : CommandWord) (n : Nat) :
    operand (decode cmd n) = if cmd = initWord then n else 0 := by
  obtain rfl | rfl | rfl | rfl := commandWord_cases cmd <;> rfl

theorem encodeWires_decodeWires (aw : Nat) (w : BitVec (aw + 2)) :
    encodeWires aw (decodeWires aw w) =
      (if w.extractLsb' 0 2 = initWord then w.extractLsb' 2 aw else 0#aw) ++ w.extractLsb' 0 2 := by
  rw [encodeWires, decodeWires, opcode_decode, operand_decode]
  split
  · rw [BitVec.ofNat_toNat, BitVec.setWidth_eq]
  · rfl

/-! ## The numbering of the opcode table -/

@[simp] theorem tableWordCommand_encodeTableWord (i : Instr) : tableWordCommand (encodeTableWord i) = opcode i := by
  have hlt : (opcode i).toNat < 4 := (opcode i).isLt
  apply BitVec.eq_of_toNat_eq
  rw [tableWordCommand, encodeTableWord, BitVec.toNat_ofNat]
  omega

theorem tableWordOperand_encodeTableWord {nbits : Nat} {i : Instr} (h : encodeTableWord i < 2 ^ nbits) :
    tableWordOperand nbits (encodeTableWord i) = operand i := by
  have hlt : (opcode i).toNat < 4 := (opcode i).isLt
  rw [tableWordOperand, Nat.mod_eq_of_lt h, encodeTableWord]
  omega

theorem decodeTableWord_eq {nbits : Nat} (h : 2 ≤ nbits) (w : Nat) :
    decodeTableWord nbits w = some (decode (tableWordCommand w) (tableWordOperand nbits w)) :=
  if_neg (Nat.not_lt.2 h)

/-! ## The statements -/

/-- Settles O10: the port is `decode_encode`, and on the wires and in the table's numbering the decoder reads the
word and the operand back as they were put there. -/
theorem decodeOfEncodeIsTheCommand : Obligations.DecodeOfEncodeIsTheCommand := by
  refine ⟨Machine.decode_encode, fun aw i h => decodeWires_encodeWires h, fun nbits i hn h => ?_⟩
  rw [decodeTableWord_eq hn, tableWordCommand_encodeTableWord, tableWordOperand_encodeTableWord h]
  exact congrArg some (Machine.decode_encode i)

/-- Settles O11: the operand is read off `aw` wires, so it fits; INIT gives its two parts of the wires back, and
they join to the whole. -/
theorem encodeOfDecodeIsTheWires : Obligations.EncodeOfDecodeIsTheWires := by
  intro aw w haw
  refine ⟨decode_wf haw (BitVec.isLt _) _, fun h => ?_, fun h => ?_⟩
  · rw [encodeWires_decodeWires, if_pos h, BitVec.extractLsb'_append_extractLsb']
  · rw [encodeWires_decodeWires, if_neg h]

end Sys2Proof

/-! PROOFS. Commands and events one after the other (30_encoding.md R57, 20_memory.md R40, R42, 10_state.md R22): what a
command and an event can do, said once; what is pending plays no part in a command; the host's own accesses; and the
statements that follow. -/

namespace Sys2Proof.Machine

/-! ## What a command and an event can do -/

/-- Everything a command can do: a fresh start, or the STEPs it stands for. -/
theorem exec_cases {i : Instr} {s t : State} (h : exec i s = .next t) :
    (∃ n, i = .init n ∧ t = s.startFresh n) ∨ (keepsInvocation i = true ∧ t = s.steps (stepCount i)) := by
  cases hi : keepsInvocation i with
  | true => exact .inr ⟨rfl, (Host.Outcome.next.inj ((exec_keeps hi s).symm.trans h)).symm⟩
  | false =>
    cases i with
    | init n => exact .inl ⟨n, rfl, (Host.Outcome.next.inj h).symm⟩
    | hold => cases hi
    | step => cases hi
    | byte => cases hi

/-- Of the words, INIT's alone starts an invocation. -/
theorem keepsInvocation_decode (cmd : CommandWord) (n : Nat) : keepsInvocation (decode cmd n) = !(cmd == initWord) := by
  obtain rfl | rfl | rfl | rfl := commandWord_cases cmd <;> rfl

/-- Everything an event can do: one that restarts is a fresh start, with an empty buffer or with the length INIT
presents; any other is the STEPs of a command or one store. -/
theorem runEvent_restarts_cases {e : HostEvent} {s s' : State} (h : State.runEvent e s = .next s') :
    (e.restarts = true ∧ ∃ n, s' = s.startFresh n ∧ (n = 0 ∨ e = .command initWord n)) ∨
    (e.restarts = false ∧
      ((∃ i, keepsInvocation i = true ∧ s' = s.steps (stepCount i)) ∨ ∃ a b, s' = s.memWrite a b)) := by
  cases e with
  | reset => cases h; exact .inl ⟨rfl, 0, rfl, .inl rfl⟩
  | resetWithCommand _ _ => cases h; exact .inl ⟨rfl, 0, rfl, .inl rfl⟩
  | hostWrite a b => cases h; exact .inr ⟨rfl, .inr ⟨a, b, rfl⟩⟩
  | hostRead _ => cases h; exact .inr ⟨rfl, .inl ⟨.hold, rfl, rfl⟩⟩
  | observe => cases h; exact .inr ⟨rfl, .inl ⟨.hold, rfl, rfl⟩⟩
  | command cmd lenIn =>
    rcases exec_cases h with ⟨n, hdec, hs⟩ | ⟨hkeep, hs⟩
    · obtain ⟨rfl, rfl⟩ := decode_eq_init_iff.1 hdec
      exact .inl ⟨rfl, lenIn, hs, .inr rfl⟩
    · refine .inr ⟨?_, .inl ⟨_, hkeep, hs⟩⟩
      rwa [keepsInvocation_decode, Bool.not_eq_true'] at hkeep

/-! ## Sequences -/

@[simp] theorem execAll_nil (s : State) : execAll [] s = .next s := rfl

@[simp] theorem execAll_hold_cons (is : List Instr) (s : State) : execAll (.hold :: is) s = execAll is s := rfl

/-- Of two fresh starts in a row the second alone counts (40_control.md R66). -/
@[simp] theorem State.startFresh_startFresh (s : State) (m n : Nat) :
    (s.startFresh m).startFresh n = s.startFresh n := rfl

/-- What is pending plays no part in a command. -/
theorem exec_withEvents {i : Instr} {s t : State} (h : exec i s = .next t) (es : List HostEvent) :
    exec i { s with events := es } = .next { t with events := es } := by
  rcases exec_cases h with ⟨n, rfl, rfl⟩ | ⟨hi, rfl⟩
  · exact exec_init n { s with events := es }
  · rw [exec_keeps hi, State.steps_withEvents]

/-! ## One step: nothing pending, a command presented, a host access -/

theorem step_of_no_events {s : State} (h : s.events = []) : step s = .next s := by
  simp only [step, State.takeEvent, h]

theorem runEvent_command (cmd : CommandWord) (lenIn : Nat) (s : State) :
    State.runEvent (.command cmd lenIn) s = exec (decode cmd lenIn) s := rfl

theorem step_withFetchWord (s : State) (nbits w : Nat) :
    step (s.withFetchWord nbits w) = exec (decode (tableWordCommand w) (tableWordOperand nbits w)) s :=
  step_of_events (s := s.withFetchWord nbits w) rfl

/-- The machine takes the command numbered `w` as the table's decoder reads it (log entry 7). -/
theorem step_withFetchWord_of_decode {nbits w : Nat} {i : Instr} (h : decodeTableWord nbits w = some i) (s : State) :
    step (s.withFetchWord nbits w) = exec i s := by
  rw [step_withFetchWord]
  by_cases hn : nbits < 2
  · rw [decodeTableWord, if_pos hn] at h
    cases h
  · rw [decodeTableWord_eq (Nat.not_lt.1 hn)] at h
    rw [Option.some.inj h]

theorem runEvent_hostWrite (a : Nat) (b : Byte) (s : State) :
    State.runEvent (.hostWrite a b) s = .next (s.memWrite a b) := rfl

theorem runEvent_hostRead (a : Nat) (s : State) : State.runEvent (.hostRead a) s = .next s := rfl

theorem runEvent_observe (s : State) : State.runEvent .observe s = .next s := rfl

/-- A store writes no register the host can see. -/
@[simp] theorem State.memWrite_observe (s : State) (a : Nat) (b : Byte) : (s.memWrite a b).observe = s.observe := rfl

/-- The host reads back the byte it stored, and any other byte as before (20_memory.md R32). -/
theorem State.memWrite_hostRead {s : State} (h : s.buf.wf = true) (a : Nat) (b : Byte) (c : Nat) :
    (s.memWrite a b).hostRead c = if c = a then b else s.hostRead c :=
  Memory.read_write h a b c

/-! ## The statements -/

/-- Settles O2: the reset values are the constants of R23 and R14. -/
theorem resetStateHoldsTheTableOfResetValues : Obligations.ResetStateHoldsTheTableOfResetValues :=
  ⟨rfl, rfl, rfl, rfl, rfl, rfl, rfl, rfl, rfl, rfl, rfl⟩

/-- Settles O4, by induction over the sequence: a HOLD leads where it started, any other command stays. -/
theorem holdsMayBeTakenOut : Obligations.HoldsMayBeTakenOut := by
  intro is
  induction is with
  | nil => exact fun s => rfl
  | cons i is ih =>
    intro s
    by_cases hi : i = .hold
    · subst hi
      rw [List.filter_cons_of_neg (by decide), execAll_hold_cons, ih]
    · obtain ⟨t, ht⟩ := exec_safe i s
      rw [List.filter_cons_of_pos (by simpa using hi), execAll_cons_of_next ht, execAll_cons_of_next ht, ih]

/-- Settles O6: a fresh start takes over the storage and what is pending, and nothing else. -/
theorem initForgetsTheRegistersBefore : Obligations.InitForgetsTheRegistersBefore := by
  refine ⟨fun n s s' hb he => ?_, fun m n s => ?_⟩
  · rw [exec_init, exec_init, State.startFresh_eq, State.startFresh_eq, hb, he]
  · rw [execAll_init, execAll_init, execAll_nil, State.startFresh_startFresh, exec_init]

/-- Settles O13: the oldest event is the command presented, and the decoder reads it back. -/
theorem stepRunsThePresentedCommand : Obligations.StepRunsThePresentedCommand := by
  refine ⟨fun s cmd lenIn es h => ?_, fun s i es h => ?_, fun s nbits w i h => step_withFetchWord_of_decode h s⟩
  · rw [step_of_events h, runEvent_command]
  · rw [step_of_events h, runEvent_present]

/-- Settles O12: the decoder's answer word by word, and each word runs as the command it decodes to. -/
theorem writtenWordsDecode : Obligations.WrittenWordsDecode := by
  have h0 : decodeTableWord 8 0b00000000 = some .hold := rfl
  have h1 : decodeTableWord 8 0b00000001 = some (.init 0) := rfl
  have h2 : decodeTableWord 8 0b00000010 = some .step := rfl
  have h3 : decodeTableWord 8 0b00000011 = some .byte := rfl
  have h33 : decodeTableWord 8 0b00100001 = some (.init 8) := rfl
  exact ⟨h0, h1, h2, h3, h33, rfl, fun s =>
    ⟨step_withFetchWord_of_decode h0 s, step_withFetchWord_of_decode h1 s, step_withFetchWord_of_decode h2 s,
      step_withFetchWord_of_decode h3 s, step_withFetchWord_of_decode h33 s⟩⟩

/-- Settles O14, by induction over the commands: each step runs the first one, which leaves the rest pending. -/
theorem pendingCommandsRunInOrder : Obligations.PendingCommandsRunInOrder := by
  intro is
  induction is with
  | nil => exact fun es s => rfl
  | cons i is ih =>
    intro es s
    obtain ⟨t, ht⟩ := exec_safe i s
    have hstep : step { s with events := HostEvent.present i :: (is.map HostEvent.present ++ es) } =
        .next { t with events := is.map HostEvent.present ++ es } := by
      rw [step_of_events rfl, runEvent_present]
      exact exec_withEvents ht _
    rw [List.length_cons, run_succ, List.map_cons, List.cons_append, hstep,
      execAll_cons_of_next (exec_withEvents ht es)]
    exact ih es t

/-- Settles O16: the write is one store, and the two reads answer the state they found. -/
theorem hostAccessesTouchOnlyTheByteWritten : Obligations.HostAccessesTouchOnlyTheByteWritten := by
  refine ⟨fun s a b es hwf h => ?_, fun s a es h => ?_, fun s es h => ?_⟩
  · have hread := State.memWrite_hostRead (s := { s with events := es }) hwf a b
    refine ⟨_, ?_, State.memWrite_observe { s with events := es } a b, rfl,
      Memory.write_wf hwf a b, ?_, fun c hc => ?_⟩
    · rw [step_of_events h, runEvent_hostWrite]
    · rw [hread, if_pos rfl]
    · rw [hread, if_neg hc]
      rfl
  · rw [step_of_events h, runEvent_hostRead]
  · rw [step_of_events h, runEvent_observe]

/-- Settles O17, by the step's equation for an empty queue. -/
theorem nothingPendingNothingHappens : Obligations.NothingPendingNothingHappens := fun _ h => step_of_no_events h

/-- Settles O19: equal observations are equal registers, and with the storage and the queue they are the state. -/
theorem observationIsTheWholeBlock : Obligations.ObservationIsTheWholeBlock := by
  refine ⟨fun s s' h hb he => ?_, fun s => rfl⟩
  obtain ⟨hg, ha, hn, hp, hl⟩ := (State.sameRegisters_iff s s').1 h
  exact State.ext_gen hg ha hn hp hl hb he

end Sys2Proof.Machine

/-! PROOFS. The invariant that ties state to position (42_byte_apply.md R92): POS in range, the generator on its orbit,
the accumulator's bits, the storage's form; each kept by a STEP, so by every event; and what the bytes passed have
met. -/

namespace Sys2Proof.Machine

/-! ## POS in range -/

theorem State.startFresh_inRange (s : State) (n : Nat) : (s.startFresh n).InRange :=
  ⟨Nat.zero_le n, fun _ => rfl⟩

/-- The gate keeps a STEP from moving POS past LEN. -/
theorem State.oneStep_pos_le_len {s : State} (h : s.pos ≤ s.len) : s.oneStep.pos ≤ s.oneStep.len := by
  rcases s.oneStep_cases with ⟨-, hs⟩ | ⟨-, -, hs⟩ | ⟨hp, -, hs⟩ <;> rw [hs]
  · exact h
  · exact h
  · exact Nat.succ_le_of_lt (Nat.lt_of_le_of_ne h hp)

theorem State.steps_pos_le_len {s : State} (h : s.pos ≤ s.len) (k : Nat) : (s.steps k).pos ≤ (s.steps k).len := by
  induction k generalizing s with
  | zero => exact h
  | succ k ih => exact ih (State.oneStep_pos_le_len h)

/-- Only the STEP at a boundary can end at LEN, and it sets the count to 0. -/
theorem State.InRange.oneStep {s : State} (h : s.InRange) : s.oneStep.InRange := by
  refine ⟨State.oneStep_pos_le_len h.posLeLen, ?_⟩
  rcases s.oneStep_cases with ⟨-, hs⟩ | ⟨hp, -, hs⟩ | ⟨-, hn, hs⟩ <;> rw [hs]
  · exact h.doneWhole
  · exact fun e => absurd e hp
  · intro _
    rw [State.advance_nacc, State.xorByte_nacc, State.shiftBit_nacc, hn, nextCount_seven]

theorem State.InRange.steps {s : State} (h : s.InRange) (k : Nat) : (s.steps k).InRange := by
  induction k generalizing s with
  | zero => exact h
  | succ k ih => exact ih h.oneStep

/-! ## The storage's form -/

theorem State.steps_wf {s : State} (h : s.buf.wf = true) (k : Nat) : (s.steps k).buf.wf = true := by
  induction k generalizing s with
  | zero => exact h
  | succ k ih => exact ih (State.oneStep_wf h)

/-! ## The bit-steps counted -/

@[simp] theorem State.startFresh_bitCount (s : State) (n : Nat) : (s.startFresh n).bitCount = 0 := rfl

/-- POS is the whole bytes of the count, whatever NACC is. -/
theorem State.pos_eq_bitCount_div (s : State) : s.pos = s.bitCount / 8 := by
  have := s.nacc.isLt
  rw [State.bitCount]
  omega

/-- A STEP that is not gated does one bit-step: the generator, ACC and the count n all move by one. -/
theorem State.oneStep_ungated {s : State} (hp : s.pos ≠ s.len) :
    s.oneStep.gen = bitstep s.gen ∧ s.oneStep.acc = shiftIn s.acc (bitstep s.gen).x ∧
      s.oneStep.bitCount = s.bitCount + 1 := by
  rcases s.oneStep_cases with ⟨hd, -⟩ | ⟨-, hn, hs⟩ | ⟨-, hn, hs⟩
  · exact absurd hd hp
  · rw [hs]
    refine ⟨rfl, rfl, ?_⟩
    rw [State.bitCount, State.shiftBit_nacc, nextCount_of_ne hn]
    rfl
  · rw [hs]
    refine ⟨rfl, rfl, ?_⟩
    simp [State.bitCount, hn, nextCount_seven, Nat.mul_add]

/-- The generator stays on its orbit, at the count of the bit-steps done (R92). -/
theorem State.oneStep_gen_onOrbit {s : State} (h : s.gen = orbit s.bitCount) :
    s.oneStep.gen = orbit s.oneStep.bitCount := by
  by_cases hp : s.pos = s.len
  · rwa [State.oneStep_of_done hp]
  · obtain ⟨hg, -, hc⟩ := State.oneStep_ungated hp
    rw [hg, h, hc, orbit_succ]

theorem State.steps_gen_onOrbit {s : State} (h : s.gen = orbit s.bitCount) (k : Nat) :
    (s.steps k).gen = orbit (s.steps k).bitCount := by
  induction k generalizing s with
  | zero => exact h
  | succ k ih => exact ih (State.oneStep_gen_onOrbit h)

/-- In range, DONE is a count of 8 LEN bit-steps. -/
theorem State.InRange.pos_eq_len_iff {s : State} (h : s.InRange) : s.pos = s.len ↔ s.bitCount = 8 * s.len := by
  have hlt := s.nacc.isLt
  constructor
  · intro e
    rw [State.bitCount, h.doneWhole e, e]
    rfl
  · intro e
    rw [State.bitCount] at e
    omega

/-- The count never passes 8 LEN. -/
theorem State.InRange.bitCount_le {s : State} (h : s.InRange) : s.bitCount ≤ 8 * s.len := by
  have hlt := s.nacc.isLt
  have hle := h.posLeLen
  by_cases e : s.pos = s.len
  · exact (h.pos_eq_len_iff.1 e).le
  · rw [State.bitCount]
    omega

/-- `k` STEPs are `k` bit-steps, or as many as are left of the invocation. -/
theorem State.InRange.steps_bitCount {s : State} (h : s.InRange) (k : Nat) :
    (s.steps k).bitCount = min (s.bitCount + k) (8 * s.len) := by
  induction k generalizing s with
  | zero => exact (Nat.min_eq_left h.bitCount_le).symm
  | succ k ih =>
    by_cases hp : s.pos = s.len
    · rw [State.steps_of_done hp, h.pos_eq_len_iff.1 hp, Nat.min_eq_right (Nat.le_add_right _ _)]
    · obtain ⟨-, -, hc⟩ := State.oneStep_ungated hp
      rw [State.steps_succ, ih h.oneStep, hc, State.oneStep_len, Nat.add_right_comm, Nat.add_assoc]

/-- POS never goes back within an invocation. -/
theorem State.oneStep_pos_cases (s : State) : s.oneStep.pos = s.pos ∨ s.oneStep.pos = s.pos + 1 := by
  rcases s.oneStep_cases with ⟨-, hs⟩ | ⟨-, -, hs⟩ | ⟨-, -, hs⟩ <;> rw [hs]
  · exact .inl rfl
  · exact .inl rfl
  · exact .inr rfl

theorem State.steps_pos_le (s : State) (k : Nat) : s.pos ≤ (s.steps k).pos := by
  induction k generalizing s with
  | zero => exact Nat.le_refl _
  | succ k ih =>
    refine Nat.le_trans ?_ (ih s.oneStep)
    rcases s.oneStep_pos_cases with h | h <;> omega

/-! ## The accumulator's bits -/

/-- A fresh accumulator holds no keystream bit yet. -/
theorem State.startFresh_accIsRecent (s : State) (n : Nat) : (s.startFresh n).AccIsRecent := by
  intro j _
  rw [State.startFresh_bitCount, if_neg (Nat.not_lt_zero j), State.startFresh_acc]
  exact BitVec.extractLsb'_zero ..

/-- Shifting the next keystream bit in keeps the accumulator's bits the most recent ones. -/
theorem State.AccIsRecent.succ {s t : State} (h : s.AccIsRecent)
    (ha : t.acc = shiftIn s.acc (ksBit s.bitCount)) (hn : t.bitCount = s.bitCount + 1) : t.AccIsRecent := by
  intro j hj
  rw [ha, hn]
  cases j with
  | zero =>
    rw [if_pos (Nat.succ_pos _)]
    exact shiftIn_bit_zero _ _
  | succ j =>
    have hj7 : j < 7 := Nat.lt_of_succ_lt_succ hj
    rw [shiftIn_bit_succ _ _ hj7, h j (Nat.lt_succ_of_lt hj7)]
    simp only [Nat.add_lt_add_iff_right]
    rw [show s.bitCount + 1 - 1 - (j + 1) = s.bitCount - 1 - j by omega]

/-- The bits of an accumulator after `k` bit-steps: bit `j` is the keystream bit `j` bit-steps back. -/
theorem accSteps_bit (k : Nat) (g : Generator) (acc : Byte) {j : Nat} (hj : j < 8) (hk : j < k) :
    (accSteps k g acc).extractLsb' j 1 = (bitsteps (k - j) g).x := by
  induction k generalizing j with
  | zero => exact absurd hk (Nat.not_lt_zero j)
  | succ k ih =>
    rw [accSteps_succ]
    cases j with
    | zero => exact shiftIn_bit_zero _ _
    | succ j =>
      rw [shiftIn_bit_succ _ _ (Nat.lt_of_succ_lt_succ hj), ih (Nat.lt_of_succ_lt hj) (Nat.lt_of_succ_lt_succ hk),
        Nat.add_sub_add_right]

/-- The first bit of a keystream byte stands in bit 7 (R89). -/
theorem ksByte_bit (i : Nat) {j : Nat} (hj : j < 8) : (ksByte i).extractLsb' j 1 = ksBit (8 * i + 7 - j) := by
  rw [ksByte_eq_accSteps i 0x00#8, accSteps_bit 8 _ _ hj hj, ← orbit_add, ksBit]
  exact congrArg (fun k => (orbit k).x) (by omega)

/-- At the end of byte `i` the recent bits are that byte of the keystream. -/
theorem State.AccIsRecent.acc_eq_ksByte {s : State} (h : s.AccIsRecent) {i : Nat} (hn : s.bitCount = 8 * i + 8) :
    s.acc = ksByte i := by
  apply Byte.eq_of_bits
  intro j hj
  rw [h j hj, ksByte_bit i hj, hn, if_pos (by omega), show 8 * i + 8 - 1 - j = 8 * i + 7 - j by omega]

/-! ## The invariant -/

/-- A fresh start meets the invariant over any canonical storage. -/
theorem State.startFresh_inv {s : State} (h : s.buf.wf = true) (n : Nat) : (s.startFresh n).Inv where
  range := s.startFresh_inRange n
  genOnOrbit := rfl
  accRecent := s.startFresh_accIsRecent n
  bufCanonical := h

theorem State.Inv.oneStep {s : State} (h : s.Inv) : s.oneStep.Inv := by
  by_cases hp : s.pos = s.len
  · rwa [State.oneStep_of_done hp]
  · obtain ⟨-, ha, hc⟩ := State.oneStep_ungated hp
    have hx : (bitstep s.gen).x = ksBit s.bitCount := by rw [h.genOnOrbit, ksBit_eq]
    exact
      { range := h.range.oneStep
        genOnOrbit := State.oneStep_gen_onOrbit h.genOnOrbit
        accRecent := h.accRecent.succ (by rw [ha, hx]) hc
        bufCanonical := State.oneStep_wf h.bufCanonical }

theorem State.Inv.steps {s : State} (h : s.Inv) (k : Nat) : (s.steps k).Inv := by
  induction k generalizing s with
  | zero => exact h
  | succ k ih => exact ih h.oneStep

/-- A store of the host writes no register. -/
theorem State.Inv.memWrite {s : State} (h : s.Inv) (a : Nat) (b : Byte) : (s.memWrite a b).Inv where
  range := ⟨h.range.posLeLen, h.range.doneWhole⟩
  genOnOrbit := h.genOnOrbit
  accRecent := h.accRecent
  bufCanonical := Memory.write_wf h.bufCanonical a b

/-- The invariant does not speak of what is pending. -/
theorem State.Inv.withEvents {s : State} (h : s.Inv) (es : List HostEvent) : ({ s with events := es } : State).Inv where
  range := ⟨h.range.posLeLen, h.range.doneWhole⟩
  genOnOrbit := h.genOnOrbit
  accRecent := h.accRecent
  bufCanonical := h.bufCanonical

/-! ## What a predicate needs to hold of every state a run reaches -/

/-- A predicate that does not speak of what is pending, and that a fresh start, a STEP and a host store keep, is
kept by every step of the machine. -/
theorem step_keeps {P : State → Prop} {s s' : State} (h : P s) (hs : step s = .next s')
    (hevents : ∀ s es, P s → P { s with events := es }) (hfresh : ∀ s n, P s → P (s.startFresh n))
    (hstep : ∀ s, P s → P s.oneStep) (hwrite : ∀ s a b, P s → P (s.memWrite a b)) : P s' := by
  have hsteps : ∀ k s, P s → P (s.steps k) := by
    intro k
    induction k with
    | zero => exact fun _ h => h
    | succ k ih => exact fun s h => ih _ (hstep s h)
  rcases step_cases hs with ⟨-, rfl⟩ | ⟨e, es, -, hrun⟩
  · exact h
  · have he := hevents s es h
    rcases runEvent_cases hrun with ⟨n, rfl⟩ | ⟨k, rfl⟩ | ⟨a, b, rfl⟩
    · exact hfresh _ n he
    · exact hsteps k _ he
    · exact hwrite _ a b he

/-! ## The bytes passed -/

/-- One STEP XORs the byte at POS with its keystream byte when it passes it, and changes no other byte. -/
theorem State.Inv.oneStep_read {s : State} (h : s.Inv) (p : Nat) :
    s.oneStep.buf.read p =
      if s.pos ≤ p ∧ p < s.oneStep.pos then s.buf.read p ^^^ ksByte p else s.buf.read p := by
  rcases s.oneStep_cases with ⟨-, hs⟩ | ⟨-, -, hs⟩ | ⟨hp, hn, hs⟩
  · rw [hs, if_neg (by omega)]
  · rw [hs, State.shiftBit_pos, if_neg (by omega), State.shiftBit_buf]
  · have hacc : s.oneStep.acc = ksByte s.pos := by
      apply h.oneStep.accRecent.acc_eq_ksByte
      obtain ⟨-, -, hc⟩ := State.oneStep_ungated hp
      rw [hc, State.bitCount, hn]
      rfl
    rw [hs] at hacc ⊢
    rw [State.advance_acc, State.xorByte_acc] at hacc
    rw [State.advance_buf, State.xorByte_buf, State.shiftBit_buf, State.shiftBit_pos, hacc,
      Memory.read_write h.bufCanonical, State.advance_pos, State.xorByte_pos, State.shiftBit_pos]
    by_cases he : p = s.pos
    · rw [if_pos he, if_pos (by omega), he]
    · rw [if_neg he, if_neg (by omega)]

/-- The bytes passed by `k` STEPs are XORed each with its own keystream byte, once. -/
theorem State.Inv.steps_read {s : State} (h : s.Inv) (k p : Nat) :
    (s.steps k).buf.read p =
      if s.pos ≤ p ∧ p < (s.steps k).pos then s.buf.read p ^^^ ksByte p else s.buf.read p := by
  induction k generalizing s with
  | zero => rw [State.steps_zero, if_neg (by omega)]
  | succ k ih =>
    have h1 := s.oneStep.steps_pos_le k
    rw [State.steps_succ, ih h.oneStep, h.oneStep_read]
    rcases s.oneStep_pos_cases with hp | hp
    · rw [hp, if_neg (by omega : ¬(s.pos ≤ p ∧ p < s.pos))]
    · by_cases he : p = s.pos
      · rw [if_neg (by omega), if_pos (by omega), if_pos (by omega)]
      · have hle : s.oneStep.pos ≤ p ↔ s.pos ≤ p := by omega
        rw [if_neg (by omega : ¬(s.pos ≤ p ∧ p < s.oneStep.pos))]
        simp only [hle]

/-! ## The statements -/

/-- Settles O42: a fresh start, a STEP and a host store keep the invariant, so every step does. -/
theorem everyStepKeepsThePositionInvariant : Obligations.EveryStepKeepsThePositionInvariant := fun _ _ h hs =>
  step_keeps h hs (fun _ es h => h.withEvents es) (fun _ n h => State.startFresh_inv h.bufCanonical n)
    (fun _ h => h.oneStep) (fun _ a b h => h.memWrite a b)

/-- Settles O43: the sequence is a number of STEPs, and each of them keeps the invariant. -/
theorem eachByteMeetsItsOwnKeystreamByte : Obligations.EachByteMeetsItsOwnKeystreamByte := fun _ s his h =>
  ⟨_, execAll_keeps his s, h.steps _, s.steps_pos_le _, State.steps_len _ s, h.steps_read _⟩

/-- Settles O55: the same three kinds of event, with POS in range alone. -/
theorem everyStepKeepsPositionInRange : Obligations.EveryStepKeepsPositionInRange := fun _ _ h hs =>
  step_keeps h hs (fun _ _ h => ⟨h.posLeLen, h.doneWhole⟩) (fun s n _ => s.startFresh_inRange n)
    (fun _ h => h.oneStep) (fun _ _ _ h => ⟨h.posLeLen, h.doneWhole⟩)

/-- Settles O57: a store keeps the storage's form, and nothing but a store changes the storage. -/
theorem everyStepKeepsTheStorageCanonical : Obligations.EveryStepKeepsTheStorageCanonical := fun _ _ h hs =>
  step_keeps (P := fun s => s.buf.wf = true) h hs (fun _ _ h => h) (fun _ _ h => h)
    (fun _ h => State.oneStep_wf h) (fun _ a b h => Memory.write_wf h a b)

/-- Settles O41: the reset state is a fresh start over the empty storage. -/
theorem resetMeetsThePositionInvariant : Obligations.ResetMeetsThePositionInvariant :=
  State.startFresh_inv State.reset_buf_wf 0

end Sys2Proof.Machine

/-! PROOFS. The block with AW-bit registers (00_scope.md section 4, 92_eei_decisions.md D9) beside the machine with
natural numbers: a STEP of the one is a STEP of the other, so every command is, and POS + 1 never overflows. -/

namespace Sys2Proof.Machine

/-! ## What the AW-bit block does -/

section
variable {aw : Nat} {s : NarrowState aw}

theorem NarrowState.command_holdWord (n : BitVec aw) : s.command holdWord n = s := rfl

theorem NarrowState.command_initWord (n : BitVec aw) : s.command initWord n = s.startFresh n := rfl

theorem NarrowState.command_stepWord (n : BitVec aw) : s.command stepWord n = s.oneStep := rfl

theorem NarrowState.command_byteWord (n : BitVec aw) : s.command byteWord n = s.steps 8 :=
  (if_neg (by decide)).trans ((if_neg (by decide)).trans (if_neg (by decide)))

theorem NarrowState.oneStep_of_done (h : s.pos = s.len) : s.oneStep = s := if_pos h

theorem NarrowState.oneStep_inside (h : s.pos ≠ s.len) (hn : s.nacc ≠ 7#3) :
    s.oneStep =
      { s with t := (bitstep ⟨s.t, s.u, s.v, s.x⟩).t, u := (bitstep ⟨s.t, s.u, s.v, s.x⟩).u,
               v := (bitstep ⟨s.t, s.u, s.v, s.x⟩).v, x := (bitstep ⟨s.t, s.u, s.v, s.x⟩).x,
               acc := shiftIn s.acc (bitstep ⟨s.t, s.u, s.v, s.x⟩).x, nacc := s.nacc + 1#3 } :=
  (if_neg h).trans (if_neg hn)

theorem NarrowState.oneStep_boundary (h : s.pos ≠ s.len) (hn : s.nacc = 7#3) :
    s.oneStep =
      { s with t := (bitstep ⟨s.t, s.u, s.v, s.x⟩).t, u := (bitstep ⟨s.t, s.u, s.v, s.x⟩).u,
               v := (bitstep ⟨s.t, s.u, s.v, s.x⟩).v, x := (bitstep ⟨s.t, s.u, s.v, s.x⟩).x,
               acc := shiftIn s.acc (bitstep ⟨s.t, s.u, s.v, s.x⟩).x, nacc := 0#3, pos := s.pos + 1#aw,
               buf := s.buf.write s.pos.toNat
                 (s.buf.read s.pos.toNat ^^^ shiftIn s.acc (bitstep ⟨s.t, s.u, s.v, s.x⟩).x) } :=
  (if_neg h).trans (if_pos hn)

end

/-- Below another value of the same width there is room for one more. -/
theorem toNat_add_one_of_lt {aw : Nat} {a b : BitVec aw} (h : a.toNat < b.toNat) :
    (a + 1#aw).toNat = a.toNat + 1 := by
  have hb := b.isLt
  rw [BitVec.toNat_add, BitVec.toNat_ofNat, Nat.add_mod_mod, Nat.mod_eq_of_lt (by omega)]

/-! ## The two renderings side by side -/

/-- The premise `POS <= LEN` leaves room for `POS + 1` wherever the gate lets a STEP through. -/
theorem NarrowState.widen_oneStep {aw : Nat} {s : NarrowState aw} (es : List HostEvent)
    (h : s.pos.toNat ≤ s.len.toNat) : s.oneStep.widen es = (s.widen es).oneStep := by
  by_cases hp : s.pos = s.len
  · rw [NarrowState.oneStep_of_done hp, State.oneStep_of_done (congrArg BitVec.toNat hp)]
  · have hne : (s.widen es).pos ≠ (s.widen es).len := fun e => hp (BitVec.eq_of_toNat_eq e)
    by_cases hn : s.nacc = 7#3
    · have hpos := toNat_add_one_of_lt (Nat.lt_of_le_of_ne h hne)
      rw [NarrowState.oneStep_boundary hp hn, State.oneStep_boundary hne hn, State.shiftBit_xorByte_advance_eq hn,
        NarrowState.widen, hpos]
      rfl
    · rw [NarrowState.oneStep_inside hp hn, State.oneStep_inside hne hn, State.shiftBit_eq_of_ne hn]
      rfl

/-- A STEP of the AW-bit block keeps POS within LEN, since it is a STEP of the machine. -/
theorem NarrowState.oneStep_pos_le_len {aw : Nat} {s : NarrowState aw} (h : s.pos.toNat ≤ s.len.toNat) :
    s.oneStep.pos.toNat ≤ s.oneStep.len.toNat := by
  have hw : (s.oneStep.widen []).pos ≤ (s.oneStep.widen []).len := by
    rw [NarrowState.widen_oneStep [] h]
    exact State.oneStep_pos_le_len h
  exact hw

theorem NarrowState.widen_steps {aw : Nat} {s : NarrowState aw} (es : List HostEvent)
    (h : s.pos.toNat ≤ s.len.toNat) (k : Nat) : (s.steps k).widen es = (s.widen es).steps k := by
  induction k generalizing s with
  | zero => rfl
  | succ k ih =>
    rw [NarrowState.steps, ih (NarrowState.oneStep_pos_le_len h), NarrowState.widen_oneStep es h, State.steps_succ]

theorem NarrowState.widen_startFresh {aw : Nat} (s : NarrowState aw) (n : BitVec aw) (es : List HostEvent) :
    (s.startFresh n).widen es = (s.widen es).startFresh n.toNat := by
  rw [NarrowState.widen, NarrowState.startFresh, BitVec.toNat_ofNat, Nat.zero_mod]
  rfl

/-- Every command of the AW-bit block is the machine's command of the same word. -/
theorem NarrowState.exec_widen {aw : Nat} {s : NarrowState aw} (cmd : CommandWord) (lenIn : BitVec aw)
    (es : List HostEvent) (h : s.pos.toNat ≤ s.len.toNat) :
    exec (decode cmd lenIn.toNat) (s.widen es) = .next ((s.command cmd lenIn).widen es) := by
  obtain rfl | rfl | rfl | rfl := commandWord_cases cmd
  · rw [decode_holdWord, exec_hold, NarrowState.command_holdWord]
  · rw [decode_initWord, exec_init, NarrowState.command_initWord, NarrowState.widen_startFresh]
  · rw [decode_stepWord, exec_step, NarrowState.command_stepWord, NarrowState.widen_oneStep es h]
  · rw [decode_byteWord, exec_byte, NarrowState.command_byteWord, NarrowState.widen_steps es h]

/-- No command moves POS past LEN. -/
theorem exec_pos_le_len {i : Instr} {s t : State} (h : s.pos ≤ s.len) (ht : exec i s = .next t) :
    t.pos ≤ t.len := by
  rcases exec_cases ht with ⟨n, -, rfl⟩ | ⟨-, rfl⟩
  · exact Nat.zero_le n
  · exact State.steps_pos_le_len h _

/-! ## The statement -/

/-- Settles O59, by simulation: the two blocks' commands agree, and the machine's keep POS within LEN. -/
theorem everyAddressWidthAgreesWithTheMachine : Obligations.EveryAddressWidthAgreesWithTheMachine := by
  intro aw cmd lenIn s es h
  have hexec := NarrowState.exec_widen cmd lenIn es h
  exact ⟨hexec, exec_pos_le_len (s := s.widen es) h hexec⟩

end Sys2Proof.Machine

/-! PROOFS. The shift as a bijection (41_keystream_step.md R73), the bit-step as an injection (R70 to R77), the
generator that stays non-zero (R80), and the three statements that follow. -/

namespace Sys2Proof.Machine

/-! ## The shift and its inverse, bit by bit -/

/-- A mask that is XORed in only when bit `j` of a register is set. -/
theorem getLsbD_masked (r m : Reg16) (i j : Nat) :
    (if bitOf r j = 1#1 then m else 0x0000#16).getLsbD i = (r.getLsbD j && m.getLsbD i) := by
  cases h : r.getLsbD j with
  | true => rw [if_pos ((bitOf_eq_one r j).2 h), Bool.true_and]
  | false => rw [(bitOf_eq_zero r j).2 h, if_neg (by decide), BitVec.getLsbD_zero, Bool.false_and]

theorem unLfsr_getLsbD_zero (r m : Reg16) : (unLfsr r m).getLsbD 0 = r.getLsbD 15 := by
  refine (BitVec.getLsbD_append (y := bitOf r 15)).trans ?_
  rw [if_pos Nat.one_pos, bitOf, BitVec.getLsbD_extractLsb', decide_eq_true Nat.one_pos, Bool.true_and]

theorem unLfsr_getLsbD_succ (r m : Reg16) {i : Nat} (hi : i < 15) :
    (unLfsr r m).getLsbD (i + 1) = (r.getLsbD i ^^ (r.getLsbD 15 && m.getLsbD i)) := by
  refine (BitVec.getLsbD_append (y := bitOf r 15)).trans ?_
  rw [if_neg (by omega), Nat.add_sub_cancel, BitVec.getLsbD_extractLsb', decide_eq_true hi, Bool.true_and,
    Nat.zero_add, BitVec.getLsbD_xor, getLsbD_masked]

section
variable {m : Reg16} (hm : m.getLsbD 15 = true)
include hm

/-- The bit shifted out can be read off bit 15, which takes the fill bit 0 and the mask's set bit. -/
theorem lfsr_getLsbD_top (r : Reg16) : (lfsr r m).getLsbD 15 = r.getLsbD 0 := by
  rw [lfsr_getLsbD r m (by decide), hm, Bool.and_true]
  exact Bool.false_xor _

theorem unLfsr_lfsr (r : Reg16) : unLfsr (lfsr r m) m = r := by
  apply BitVec.eq_of_getLsbD_eq
  intro i hi
  cases i with
  | zero => rw [unLfsr_getLsbD_zero, lfsr_getLsbD_top hm]
  | succ i =>
    have hi15 : i < 15 := Nat.lt_of_succ_lt_succ hi
    rw [unLfsr_getLsbD_succ _ _ hi15, lfsr_getLsbD_top hm, lfsr_getLsbD r m (Nat.lt_of_succ_lt hi),
      decide_eq_true hi15, Bool.true_and, Bool.xor_assoc, Bool.xor_self, Bool.xor_false]

theorem lfsr_unLfsr (r : Reg16) : lfsr (unLfsr r m) m = r := by
  apply BitVec.eq_of_getLsbD_eq
  intro i hi
  by_cases hi15 : i < 15
  · rw [lfsr_getLsbD _ _ hi, unLfsr_getLsbD_zero, unLfsr_getLsbD_succ _ _ hi15, decide_eq_true hi15, Bool.true_and,
      Bool.xor_assoc, Bool.xor_self, Bool.xor_false]
  · obtain rfl : i = 15 := by omega
    rw [lfsr_getLsbD_top hm, unLfsr_getLsbD_zero]

theorem lfsr_injective : Function.Injective (lfsr · m) :=
  Function.LeftInverse.injective (g := (unLfsr · m)) (unLfsr_lfsr hm)

end

theorem lfsr_of_bit_clear {r : Reg16} (h : bitOf r 0 = 0#1) (m : Reg16) : lfsr r m = r >>> 1 := by
  rw [lfsr, h, if_neg (by decide), BitVec.xor_zero]

theorem lfsr_of_bit_set {r : Reg16} (h : bitOf r 0 = 1#1) (m : Reg16) : lfsr r m = r >>> 1 ^^^ m := by
  rw [lfsr, if_pos h]

theorem lfsr_zero (m : Reg16) : lfsr 0x0000#16 m = 0x0000#16 := lfsr_of_bit_clear rfl m

theorem lfsr_eq_zero_iff {m : Reg16} (hm : m.getLsbD 15 = true) (r : Reg16) :
    lfsr r m = 0x0000#16 ↔ r = 0x0000#16 := by
  constructor
  · intro h
    exact lfsr_injective hm (h.trans (lfsr_zero m).symm)
  · rintro rfl
    exact lfsr_zero m

theorem Config.tMask_top : Config.tMask.getLsbD 15 = true := rfl

theorem Config.uMask_top : Config.uMask.getLsbD 15 = true := rfl

theorem Config.vMask_top : Config.vMask.getLsbD 15 = true := rfl

/-! ## The bit-step taken back -/

/-- T, and with it every decision to shift U, is the same before two equal bit-steps. -/
theorem bitstep_u_inj {g h : Generator} (ht : g.t = h.t) (hu : (bitstep g).u = (bitstep h).u) : g.u = h.u := by
  cases hb : g.t.getLsbD 0 with
  | true => rwa [bitstep_u_holds hb, bitstep_u_holds (ht ▸ hb)] at hu
  | false =>
    rw [bitstep_u_shifts hb, bitstep_u_shifts (ht ▸ hb)] at hu
    exact lfsr_injective Config.uMask_top hu

/-- T and U decide whether V shifts. -/
theorem bitstep_v_inj {g h : Generator} (ht : g.t = h.t) (hu : g.u = h.u) (hv : (bitstep g).v = (bitstep h).v) :
    g.v = h.v := by
  by_cases hb : g.t.getLsbD 0 = g.u.getLsbD 0
  · rw [bitstep_v_shifts hb, bitstep_v_shifts (ht ▸ hu ▸ hb)] at hv
    exact lfsr_injective Config.vMask_top hv
  · rwa [bitstep_v_holds hb, bitstep_v_holds (ht ▸ hu ▸ hb)] at hv

/-- T, U and V decide the term that X takes. -/
theorem bitstep_x_inj {g h : Generator} (ht : g.t = h.t) (hu : g.u = h.u) (hv : g.v = h.v)
    (hx : (bitstep g).x = (bitstep h).x) : g.x = h.x := by
  have hsample : g.sample = h.sample := by rw [Generator.sample, Generator.sample, ht, hu, hv]
  rw [bitstep_x, bitstep_x, hsample] at hx
  exact (BitVec.xor_left_inj _).1 hx

/-! ## T is never zero -/

/-- T is shifted or stays, so it stays non-zero. -/
theorem State.oneStep_t_ne_zero {s : State} (h : s.t ≠ 0x0000#16) : s.oneStep.t ≠ 0x0000#16 := by
  have hshift : (bitstep s.gen).t ≠ 0x0000#16 := mt (lfsr_eq_zero_iff Config.tMask_top s.t).1 h
  rcases s.oneStep_cases with ⟨-, hs⟩ | ⟨-, -, hs⟩ | ⟨-, -, hs⟩ <;> rw [hs]
  · exact h
  · exact hshift
  · exact hshift

/-! ## The statements -/

/-- Settles O24: the shift and R73's inverse undo each other bit by bit, and the values it lists are one shift each. -/
theorem shiftIsABijectionForTheMasks : Obligations.ShiftIsABijectionForTheMasks := by
  refine ⟨fun m hm _ => ⟨lfsr_getLsbD_top hm, unLfsr_lfsr hm, lfsr_unLfsr hm, lfsr_eq_zero_iff hm, ?_, ?_, ?_⟩,
    ⟨rfl, rfl, rfl, rfl, rfl, rfl⟩⟩
  · exact (lfsr_of_bit_set rfl m).trans BitVec.zero_xor
  · exact lfsr_of_bit_clear rfl m
  · exact lfsr_of_bit_set rfl m

/-- Settles O26, register by register: T first, whose bits decide what U, V and X did. -/
theorem bitstepLosesNothing : Obligations.BitstepLosesNothing := by
  intro g h e
  have ht : g.t = h.t := lfsr_injective Config.tMask_top (congrArg Generator.t e)
  have hu : g.u = h.u := bitstep_u_inj ht (congrArg Generator.u e)
  have hv : g.v = h.v := bitstep_v_inj ht hu (congrArg Generator.v e)
  have hx : g.x = h.x := bitstep_x_inj ht hu hv (congrArg Generator.x e)
  cases g
  cases h
  simp_all only

/-- Settles O27: the zero generator is a fixed point, and T not zero is kept by every step, since the shift sends
no other value to zero. -/
theorem zeroGeneratorStaysAndIsNeverEntered : Obligations.ZeroGeneratorStaysAndIsNeverEntered := by
  have hreset : Config.tReset ≠ 0x0000#16 := by decide
  refine ⟨by decide, hreset, fun s s' h hs => ?_⟩
  exact step_keeps (P := fun s => s.t ≠ 0x0000#16) h hs (fun _ _ h => h) (fun _ _ _ => hreset)
    (fun _ h => State.oneStep_t_ne_zero h) (fun _ _ _ h => h)

end Sys2Proof.Machine

/-! PROOFS. The transform of byte lists (42_byte_apply.md R88, R89, R93, 70_reset_and_hazards.md R124): how it splits,
that it is its own inverse, and the three statements that follow. -/

namespace Sys2Proof.Machine

/-! ## XORing with the keystream from a position on -/

theorem xorFrom_append (i : Nat) (as bs : List Byte) :
    xorFrom i (as ++ bs) = xorFrom i as ++ xorFrom (i + as.length) bs := by
  induction as generalizing i with
  | nil => rfl
  | cons a as ih => rw [List.cons_append, xorFrom, ih, xorFrom, List.cons_append, List.length_cons,
      Nat.add_right_comm, Nat.add_assoc]

/-- A byte XORed twice with the same byte is as it was. -/
theorem xor_xor_self (b k : Byte) : b ^^^ k ^^^ k = b := by
  rw [BitVec.xor_assoc, BitVec.xor_self, BitVec.xor_zero]

theorem xorFrom_xorFrom (i : Nat) (bs : List Byte) : xorFrom i (xorFrom i bs) = bs := by
  induction bs generalizing i with
  | nil => rfl
  | cons b bs ih => rw [xorFrom, xorFrom, xor_xor_self, ih]

theorem xorFrom_getElem? (i : Nat) (bs : List Byte) (j : Nat) :
    (xorFrom i bs)[j]? = bs[j]?.map (· ^^^ ksByte (i + j)) := by
  induction bs generalizing i j with
  | nil => rfl
  | cons b bs ih =>
    cases j with
    | zero => rfl
    | succ j =>
      rw [xorFrom, List.getElem?_cons_succ, List.getElem?_cons_succ, ih, Nat.add_right_comm, Nat.add_assoc]

theorem applyBytes_applyBytes (bs : List Byte) : applyBytes (applyBytes bs) = bs := xorFrom_xorFrom 0 bs

/-- The second part of a joined buffer meets the keystream from the first part's length on. -/
theorem applyBytes_append (as bs : List Byte) : applyBytes (as ++ bs) = applyBytes as ++ xorFrom as.length bs := by
  rw [applyBytes, xorFrom_append, Nat.zero_add]
  rfl

/-- The stream view from byte `i` on: each BYTE takes the generator eight bit-steps further along its orbit. -/
theorem streamBytes_orbit (i : Nat) (bs : List Byte) : streamBytes (orbit (8 * i)) bs = xorFrom i bs := by
  induction bs generalizing i with
  | nil => rfl
  | cons b bs ih => rw [streamBytes, ← ksByte_eq_accSteps, ← orbit_add, ← Nat.mul_succ, ih, xorFrom]

/-! ## The statements -/

/-- Settles O40, by computing the first 64 keystream bits. -/
theorem firstKeystreamBytes : Obligations.FirstKeystreamBytes := by
  unfold Obligations.FirstKeystreamBytes
  decide

/-- Settles O49: the transform splits at the first part's length, and each part is then read on its own. -/
theorem keystreamFollowsThePosition : Obligations.KeystreamFollowsThePosition := by
  intro front back
  have hlen : (applyBytes front).length = front.length := xorFrom_length 0 front
  refine ⟨applyBytes_append front back, ?_, fun j hj => ?_⟩
  · rw [applyBytes_append, List.take_left' hlen, applyBytes_applyBytes]
  · rw [applyBytes_append, List.drop_left' hlen, applyBytes, xorFrom_getElem?, xorFrom_getElem?,
      List.getElem?_eq_getElem hj, Nat.zero_add]
    rfl

/-- Settles O53: the stream view from byte 0 on, where the generator stands at its reset constants. -/
theorem streamViewAgrees : Obligations.StreamViewAgrees := streamBytes_orbit 0

end Sys2Proof.Machine

/-! PROOFS. What STEP and BYTE change and leave unchanged (41_keystream_step.md R80, R81; 42_byte_apply.md R85 to R87):
the STEPs behind a byte boundary, the frames, which events move POS and LEN, and the statements that follow. -/

namespace Sys2Proof.Machine

/-! ## One STEP -/

theorem State.done_eq_false_iff (s : State) : s.done = false ↔ s.pos ≠ s.len := by
  rw [← Bool.not_eq_true, State.done_iff]

theorem State.atBoundary_eq_false_iff (s : State) : s.atBoundary = false ↔ s.nacc ≠ 7#3 := by
  rw [← Bool.not_eq_true, State.atBoundary_iff]

/-- One store at the applied address puts its byte there and changes no other (42_byte_apply.md R85). -/
theorem State.read_of_store_at_pos {s t : State} {b : Byte} (h : s.buf.wf = true) (ht : t.buf = s.buf.write s.pos b) :
    t.buf.read s.appliedAddress = b ∧ ∀ a : Nat, a ≠ s.appliedAddress → t.buf.read a = s.buf.read a := by
  rw [State.appliedAddress_eq, ht]
  refine ⟨?_, fun a ha => ?_⟩
  · rw [Memory.read_write h, if_pos rfl]
  · rw [Memory.read_write h, if_neg ha]

/-- A STEP that is gated or not at a byte boundary moves no POS and stores nothing. -/
theorem State.oneStep_frame_of_no_boundary {s : State} (h : s.pos = s.len ∨ s.nacc ≠ 7#3) :
    s.oneStep.pos = s.pos ∧ s.oneStep.buf = s.buf := by
  rcases s.oneStep_cases with ⟨-, hs⟩ | ⟨-, -, hs⟩ | ⟨hp, hn, -⟩
  · rw [hs]
    exact ⟨rfl, rfl⟩
  · rw [hs]
    exact ⟨rfl, rfl⟩
  · exact absurd hn (h.resolve_left hp)

/-- At a byte boundary POS goes up by one, and the one store is at the old POS, with the accumulator after the
shift. -/
theorem State.oneStep_frame_of_boundary {s : State} (hp : s.pos ≠ s.len) (hn : s.nacc = 7#3) :
    s.oneStep.pos = s.pos + 1 ∧ s.oneStep.buf = s.buf.write s.pos (s.buf.read s.pos ^^^ s.oneStep.acc) := by
  rw [State.oneStep_boundary hp hn]
  exact ⟨rfl, rfl⟩

/-! ## The STEPs of a BYTE, before and behind its boundary -/

theorem accSteps_add (j k : Nat) (g : Generator) (acc : Byte) :
    accSteps (j + k) g acc = accSteps k (bitsteps j g) (accSteps j g acc) := by
  induction k with
  | zero => rfl
  | succ k ih => rw [← Nat.add_assoc, accSteps_succ, ih, accSteps_succ, Nat.add_assoc, bitsteps_add]

/-- The 8 - NACC STEPs to the boundary and the NACC behind it. -/
theorem Count.eight_eq (n : Count) : 8 - n.toNat + n.toNat = 8 :=
  Nat.sub_add_cancel (Nat.le_of_lt n.isLt)

theorem State.steps_eight (s : State) : s.steps 8 = (s.steps (8 - s.nacc.toNat)).steps s.nacc.toNat := by
  rw [← State.steps_add, Count.eight_eq]

/-- Short of a byte boundary STEPs move no POS and store nothing, gated or not. -/
theorem State.steps_frame_inside {s : State} {k : Nat} (hk : s.nacc.toNat + k ≤ 7) :
    (s.steps k).pos = s.pos ∧ (s.steps k).buf = s.buf := by
  by_cases hp : s.pos = s.len
  · rw [State.steps_of_done hp]
    exact ⟨rfl, rfl⟩
  · rw [State.steps_inside hp k hk]
    exact ⟨rfl, rfl⟩

/-- The NACC STEPs behind the boundary start at count 0, so they reach no other. -/
theorem Count.zero_add_le (n : Count) : (0#3 : Count).toNat + n.toNat ≤ 7 := by
  have := n.isLt
  simp only [BitVec.toNat_ofNat]
  omega

/-- A BYTE that is not gated crosses one byte boundary, wherever in a byte it starts. -/
theorem State.byte_frame {s : State} (hp : s.pos ≠ s.len) :
    (s.steps 8).pos = s.pos + 1 ∧
      (s.steps 8).buf =
        s.buf.write s.pos (s.buf.read s.pos ^^^ accSteps (8 - s.nacc.toNat) s.gen s.acc) := by
  rw [State.steps_eight, State.steps_toBoundary hp]
  exact State.steps_frame_inside (Count.zero_add_le s.nacc)

/-! ## Which events move POS and LEN -/

/-- A command that keeps the invocation moves POS by at most one. -/
theorem State.steps_stepCount_pos_le (s : State) (i : Instr) : (s.steps (stepCount i)).pos ≤ s.pos + 1 := by
  cases i with
  | hold => exact Nat.le_succ _
  | init _ => exact Nat.le_succ _
  | step => rcases s.oneStep_pos_cases with h | h <;> exact h.trans_le (by omega)
  | byte =>
    by_cases hp : s.pos = s.len
    · rw [State.steps_of_done hp]
      exact Nat.le_succ _
    · exact (State.byte_frame hp).1.le

theorem State.startFresh_fits {aw n : Nat} (s : State) (h : n < 2 ^ aw) : (s.startFresh n).Fits aw :=
  ⟨Nat.zero_le n, h⟩

theorem State.Fits.steps {aw : Nat} {s : State} (h : s.Fits aw) (k : Nat) : (s.steps k).Fits aw :=
  ⟨State.steps_pos_le_len h.posLeLen k, (State.steps_len k s).trans_lt h.lenFits⟩

/-! ## The statements -/

/-- Settles O30, by the two frames of a STEP: without a boundary and at one. -/
theorem stepFrame : Obligations.StepFrame := by
  intro s t hwf ht
  obtain rfl : s.oneStep = t := Host.Outcome.next.inj ht
  refine ⟨s.oneStep_len, s.oneStep_events, fun h => ?_, fun hd hb => ?_⟩
  · rw [State.done_iff, State.atBoundary_eq_false_iff] at h
    obtain ⟨hpos, hbuf⟩ := State.oneStep_frame_of_no_boundary h
    exact ⟨hpos, fun a => by rw [hbuf]⟩
  · obtain ⟨hpos, hbuf⟩ := State.oneStep_frame_of_boundary ((State.done_eq_false_iff s).1 hd)
      ((State.atBoundary_iff s).1 hb)
    exact ⟨hpos, State.read_of_store_at_pos hwf hbuf⟩

/-- Settles O33: from count 0 the eight STEPs are those up to and with the boundary, and they replace all of ACC. -/
theorem byteInTheUsualCase : Obligations.ByteInTheUsualCase := by
  intro s k hn hlt hk
  have hsteps := State.steps_toBoundary (Nat.ne_of_lt hlt)
  rw [hn] at hsteps
  rw [exec_byte, hk, ← accSteps_eight s.gen s.acc]
  exact congrArg Host.Outcome.next hsteps

/-- Settles O34: behind the boundary the buffer goes on, and the last NACC STEPs stay inside the next byte. -/
theorem byteAcrossABoundary : Obligations.ByteAcrossABoundary := by
  intro s hlt
  have hg := bitsteps_add (8 - s.nacc.toNat) s.nacc.toNat s.gen
  have ha := accSteps_add (8 - s.nacc.toNat) s.nacc.toNat s.gen s.acc
  rw [Count.eight_eq] at hg ha
  rw [exec_byte, State.steps_eight, State.steps_toBoundary (by omega),
    State.steps_inside (Nat.ne_of_lt hlt) _ (Count.zero_add_le s.nacc)]
  refine congrArg Host.Outcome.next (State.ext_gen hg.symm ha.symm ?_ rfl rfl rfl rfl)
  simp

/-- Settles O35: the boundary makes POS = LEN, so the STEPs behind it are gated. -/
theorem byteIntoTheEnd : Obligations.ByteIntoTheEnd := by
  intro s k hlen hk
  rw [exec_byte, State.steps_eight, State.steps_toBoundary (by omega), State.steps_of_done hlen, hk]
  exact congrArg Host.Outcome.next (State.ext_gen rfl rfl rfl hlen rfl rfl rfl)

/-- Settles O36: a gated BYTE is the identity, any other makes the one store of its boundary. -/
theorem byteFrame : Obligations.ByteFrame := by
  intro s t hwf ht
  obtain rfl : s.steps 8 = t := Host.Outcome.next.inj ((exec_byte s).symm.trans ht)
  refine ⟨State.steps_len 8 s, State.steps_events 8 s, fun hd => State.steps_of_done ((State.done_iff s).1 hd) 8,
    fun hd => ?_⟩
  obtain ⟨hpos, hbuf⟩ := State.byte_frame ((State.done_eq_false_iff s).1 hd)
  exact ⟨hpos, State.read_of_store_at_pos hwf hbuf⟩

/-- Settles O54: an event that restarts is a fresh start; any other is the STEPs of one command, or one store. -/
theorem onlyInitAndResetRestart : Obligations.OnlyInitAndResetRestart := by
  intro s s' e es he hs
  rw [step_of_events he] at hs
  rcases runEvent_restarts_cases hs with ⟨hr, n, rfl, -⟩ | ⟨hr, ⟨i, -, rfl⟩ | ⟨a, b, rfl⟩⟩
  · exact ⟨fun h => absurd hr (Bool.eq_false_iff.1 h), fun _ => rfl⟩
  · exact ⟨fun _ => ⟨State.steps_len _ _, State.steps_pos_le { s with events := es } _,
        State.steps_stepCount_pos_le { s with events := es } i⟩,
      fun h => absurd h (Bool.eq_false_iff.1 hr)⟩
  · exact ⟨fun _ => ⟨rfl, Nat.le_refl _, Nat.le_succ _⟩, fun h => absurd h (Bool.eq_false_iff.1 hr)⟩

/-- Settles O58: LEN is written by a fresh start alone, with 0 or with an operand that fits, and POS stays within
LEN. -/
theorem positionAndLengthFitTheirRegisters : Obligations.PositionAndLengthFitTheirRegisters := by
  intro aw s s' h hfits hs
  rcases step_cases hs with ⟨-, rfl⟩ | ⟨e, es, he, hrun⟩
  · exact h
  · have hfit : e.fits aw = true := hfits e (by rw [he]; rfl)
    have hev : ({ s with events := es } : State).Fits aw := ⟨h.posLeLen, h.lenFits⟩
    rcases runEvent_restarts_cases hrun with ⟨-, n, rfl, rfl | rfl⟩ | ⟨-, ⟨i, -, rfl⟩ | ⟨a, b, rfl⟩⟩
    · exact State.startFresh_fits _ (Nat.two_pow_pos aw)
    · exact State.startFresh_fits _ (operand_lt_of_wf (i := .init n) hfit)
    · exact hev.steps _
    · exact ⟨h.posLeLen, h.lenFits⟩

end Sys2Proof.Machine

/-! PROOFS. The accesses on the buffer port (20_memory.md R30, R31, R37): the one pair of a byte boundary, the storage
as the accesses leave it, and the two statements that follow. -/

namespace Sys2Proof.Machine

/-! ## The pair of a byte boundary -/

/-- The read and the write at POS, with what is written. -/
def State.boundaryPair (s : State) (acc : Byte) : List Access :=
  [.read s.appliedAddress (s.buf.read s.appliedAddress),
   .write s.appliedAddress (s.buf.read s.appliedAddress ^^^ acc)]

theorem State.stepAccesses_boundary {s : State} (hp : s.pos ≠ s.len) (hn : s.nacc = 7#3) :
    s.stepAccesses = s.boundaryPair (shiftIn s.acc (bitstep s.gen).x) := by
  rw [State.stepAccesses, if_neg (mt (State.done_iff s).1 hp), if_pos ((State.atBoundary_iff s).2 hn)]
  rfl

theorem State.stepsAccesses_one (s : State) : s.stepsAccesses 1 = s.stepAccesses := List.append_nil _

theorem State.stepAccesses_of_no_boundary {s : State} (h : s.done = true ∨ s.atBoundary = false) :
    s.stepAccesses = [] := by
  rcases h with hd | hb
  · exact State.stepAccesses_of_done hd
  · rw [State.stepAccesses, hb, if_neg Bool.false_ne_true, ite_self]

/-- The STEPs up to and with the boundary make its pair, with the accumulator they leave. -/
theorem State.stepsAccesses_toBoundary {s : State} (hp : s.pos ≠ s.len) :
    s.stepsAccesses (8 - s.nacc.toNat) = s.boundaryPair (accSteps (8 - s.nacc.toNat) s.gen s.acc) := by
  have hlt := s.nacc.isLt
  have hk : s.nacc.toNat + (7 - s.nacc.toNat) ≤ 7 := by omega
  have h7 : s.nacc + BitVec.ofNat 3 (7 - s.nacc.toNat) = 7#3 := by
    apply BitVec.eq_of_toNat_eq
    simp only [BitVec.toNat_add, BitVec.toNat_ofNat]
    omega
  rw [show 8 - s.nacc.toNat = 7 - s.nacc.toNat + 1 by omega, State.stepsAccesses_add, State.stepsAccesses_inside _ hk,
    List.nil_append, State.stepsAccesses_one, State.steps_inside hp _ hk, h7]
  refine (State.stepAccesses_boundary ?_ ?_).trans rfl
  · exact hp
  · rfl

/-- A BYTE makes the pair of the boundary it crosses; the STEPs behind it make no access. -/
theorem State.byteAccesses {s : State} (hp : s.pos ≠ s.len) :
    s.stepsAccesses 8 = s.boundaryPair (accSteps (8 - s.nacc.toNat) s.gen s.acc) := by
  have hsplit := State.stepsAccesses_add (8 - s.nacc.toNat) s.nacc.toNat s
  rw [Count.eight_eq, State.stepsAccesses_toBoundary hp, State.steps_toBoundary hp,
    State.stepsAccesses_inside s.nacc.toNat (Count.zero_add_le s.nacc), List.append_nil] at hsplit
  exact hsplit

/-- Everything a command can access: nothing, or the one pair of a boundary below LEN. -/
theorem accesses_cases (i : Instr) (s : State) :
    accesses i s = [] ∨ (s.pos ≠ s.len ∧ ∃ acc, accesses i s = s.boundaryPair acc) := by
  cases i with
  | hold => exact .inl rfl
  | init n => exact .inl rfl
  | step =>
    by_cases hp : s.pos = s.len
    · exact .inl (State.stepAccesses_of_done ((State.done_iff s).2 hp))
    · by_cases hn : s.nacc = 7#3
      · exact .inr ⟨hp, _, State.stepAccesses_boundary hp hn⟩
      · exact .inl (State.stepAccesses_of_no_boundary (.inr ((State.atBoundary_eq_false_iff s).2 hn)))
  | byte =>
    by_cases hp : s.pos = s.len
    · exact .inl (State.stepsAccesses_of_done hp 8)
    · exact .inr ⟨hp, _, State.byteAccesses hp⟩

/-! ## The storage as the accesses leave it -/

theorem State.stepAccesses_fold (s : State) : s.oneStep.buf = s.stepAccesses.foldl Access.on s.buf := by
  rcases s.stepAccesses_cases with ⟨h, hb⟩ | ⟨-, -, h, hb⟩ <;> rw [h, hb] <;> rfl

theorem State.stepsAccesses_fold (s : State) (k : Nat) :
    (s.steps k).buf = (s.stepsAccesses k).foldl Access.on s.buf := by
  induction k generalizing s with
  | zero => rfl
  | succ k ih => rw [State.steps_succ, ih, State.stepAccesses_fold, State.stepsAccesses, List.foldl_append]

theorem accesses_fold {i : Instr} {s t : State} (h : exec i s = .next t) :
    t.buf = (accesses i s).foldl Access.on s.buf := by
  cases i with
  | hold => cases h; rfl
  | init n => cases h; rfl
  | step => cases h; exact s.stepAccesses_fold
  | byte =>
    obtain rfl := Host.Outcome.next.inj ((exec_byte s).symm.trans h)
    exact s.stepsAccesses_fold 8

/-! ## The statements -/

/-- Settles O37: the pair of a boundary is at POS, which the gate keeps below LEN. -/
theorem accessesStayInsideTheBuffer : Obligations.AccessesStayInsideTheBuffer := by
  intro i s hle
  refine ⟨fun x hx => ?_, fun h => ?_⟩
  · rcases accesses_cases i s with h | ⟨hp, acc, h⟩
    · rw [h] at hx
      cases hx
    · have haddr : x.address = s.appliedAddress := by
        rw [h, State.boundaryPair, List.mem_pair] at hx
        rcases hx with rfl | rfl <;> rfl
      exact ⟨haddr, haddr.trans_lt (Nat.lt_of_le_of_ne hle hp)⟩
  · cases i with
    | hold => exact accesses_hold s
    | init n => exact accesses_init n s
    | step => rcases h with h | h <;> cases h
    | byte => rcases h with h | h <;> cases h

/-- Settles O38: the storage is the fold of the accesses, and the trace of each command is written out. -/
theorem accessesAccountForTheStorage : Obligations.AccessesAccountForTheStorage := by
  refine ⟨fun i s t h => ⟨accesses_fold h, ?_⟩,
    fun s => ⟨?_, ?_, ?_, ?_, accesses_hold s, fun n => accesses_init n s⟩⟩
  · exact (accesses_cases i s).imp_right fun ⟨_, acc, h⟩ => ⟨_, h⟩
  · exact fun hd hb => State.stepAccesses_boundary ((State.done_eq_false_iff s).1 hd)
      ((State.atBoundary_iff s).1 hb)
  · exact State.stepAccesses_of_no_boundary
  · exact fun hd => State.byteAccesses ((State.done_eq_false_iff s).1 hd)
  · exact fun hd => State.stepsAccesses_of_done ((State.done_iff s).1 hd) 8

end Sys2Proof.Machine

/-! PROOFS. One invocation, from INIT to DONE and behind it (42_byte_apply.md R88, R90, R92; 70_reset_and_hazards.md
R124 to R129): where it stands after any number of STEPs, what the buffer then holds, what it has accessed, and the
statements that follow. -/

namespace Sys2Proof.Machine

/-! ## Where an invocation stands after `k` STEPs -/

section
variable (s : State) (n k : Nat)

theorem invocation_bitCount : ((s.startFresh n).steps k).bitCount = min k (8 * n) := by
  rw [(s.startFresh_inRange n).steps_bitCount, State.startFresh_bitCount, Nat.zero_add, State.startFresh_len]

theorem invocation_pos : ((s.startFresh n).steps k).pos = min k (8 * n) / 8 := by
  rw [State.pos_eq_bitCount_div, invocation_bitCount]

/-- The generator runs along its orbit and stops at DONE. -/
theorem invocation_gen : ((s.startFresh n).steps k).gen = orbit (min k (8 * n)) := by
  rw [State.steps_gen_onOrbit rfl, invocation_bitCount]

/-- The invocation is over after 8n bit-steps, not before (R129). -/
theorem invocation_done_iff : ((s.startFresh n).steps k).done = true ↔ 8 * n ≤ k := by
  rw [State.done_iff, ((s.startFresh_inRange n).steps k).pos_eq_len_iff, invocation_bitCount, State.steps_len,
    State.startFresh_len]
  exact min_eq_right_iff

end

/-- The STEPs behind DONE are gated. -/
theorem invocation_steps_of_le (s : State) {n k : Nat} (h : 8 * n ≤ k) :
    (s.startFresh n).steps k = (s.startFresh n).steps (8 * n) := by
  obtain ⟨d, rfl⟩ := Nat.exists_eq_add_of_le h
  rw [State.steps_add, State.steps_of_done]
  exact (State.done_iff _).1 ((invocation_done_iff s n (8 * n)).2 (Nat.le_refl _))

/-- After `8m` STEPs of a long enough invocation `m` bytes are passed and none is partly assembled. -/
theorem invocation_whole_bytes (s : State) {m n : Nat} (h : m ≤ n) :
    ((s.startFresh n).steps (8 * m)).pos = m ∧ ((s.startFresh n).steps (8 * m)).nacc = 0#3 := by
  have hmin : min (8 * m) (8 * n) = 8 * m := Nat.min_eq_left (Nat.mul_le_mul_left 8 h)
  have hpos : ((s.startFresh n).steps (8 * m)).pos = m := by
    rw [invocation_pos, hmin, Nat.mul_div_cancel_left m (by decide)]
  refine ⟨hpos, BitVec.eq_of_toNat_eq ?_⟩
  have hcount := invocation_bitCount s n (8 * m)
  rw [State.bitCount, hpos, hmin] at hcount
  exact Nat.add_left_cancel hcount

/-! ## What the buffer holds -/

/-- The bytes passed have met their keystream bytes, the others are as they were. -/
theorem invocation_read {s : State} (h : s.buf.wf = true) (n k p : Nat) :
    ((s.startFresh n).steps k).buf.read p =
      if p < ((s.startFresh n).steps k).pos then s.buf.read p ^^^ ksByte p else s.buf.read p := by
  rw [(State.startFresh_inv h n).steps_read]
  simp only [State.startFresh_pos, Nat.zero_le, true_and, State.startFresh_buf]

theorem invocation_wf {s : State} (h : s.buf.wf = true) (n k : Nat) : ((s.startFresh n).steps k).buf.wf = true :=
  State.steps_wf (s := s.startFresh n) h k

/-- What `APPLY n` leaves at each address (R88). -/
theorem apply_read {s : State} (h : s.buf.wf = true) (n p : Nat) :
    ((s.startFresh n).steps (8 * n)).buf.read p = if p < n then s.buf.read p ^^^ ksByte p else s.buf.read p := by
  rw [invocation_read h, (invocation_whole_bytes s (Nat.le_refl n)).1]

/-- The buffer after `APPLY n`, as a list of bytes. -/
theorem apply_bufferBytes {s : State} (h : s.buf.wf = true) (n : Nat) :
    ((s.startFresh n).steps (8 * n)).bufferBytes = applyBytes ((List.range n).map s.memRead) := by
  rw [applyBytes, xorFrom_map, State.bufferBytes, State.steps_len, State.startFresh_len]
  apply List.map_congr_left
  intro p hp
  rw [State.memRead_eq, apply_read h, if_pos (List.mem_range.1 hp), Nat.zero_add, State.memRead_eq]

/-- An `APPLY` over no more bytes than an invocation has passed takes the keystream off them again, whatever the
length of that invocation was. -/
theorem apply_invocation_read {s : State} (h : s.buf.wf = true) (n k : Nat) {m : Nat}
    (hm : m ≤ ((s.startFresh n).steps k).pos) (p : Nat) :
    ((((s.startFresh n).steps k).startFresh m).steps (8 * m)).buf.read p =
      if m ≤ p ∧ p < ((s.startFresh n).steps k).pos then s.buf.read p ^^^ ksByte p else s.buf.read p := by
  rw [apply_read (invocation_wf h n k), invocation_read h]
  by_cases hp : p < m
  · rw [if_pos hp, if_pos (Nat.lt_of_lt_of_le hp hm), if_neg (by omega), xor_xor_self]
  · rw [if_neg hp]
    simp only [Nat.not_lt.1 hp, true_and]

/-- An `APPLY` over just the bytes passed restores the storage, a byte for each address. -/
theorem apply_passed_buf {s : State} (h : s.buf.wf = true) (n k : Nat) {m : Nat}
    (hm : ((s.startFresh n).steps k).pos = m) :
    ((((s.startFresh n).steps k).startFresh m).steps (8 * m)).buf = s.buf := by
  refine Memory.eq_of_read (invocation_wf (invocation_wf h n k) m _) h fun p => ?_
  rw [apply_invocation_read h n k hm.ge, hm, if_neg (by omega)]

/-! ## What it has accessed -/

/-- The accesses to one byte of the transform, in order. -/
def byteAccessPair (m : Memory) (a : Nat) : List Access :=
  [.read a (m.read a), .write a (m.read a ^^^ ksByte a)]

/-- Byte `m` of an invocation is read as the host left it, since only the bytes before it have been passed. -/
theorem invocation_byteAccesses {s : State} (h : s.buf.wf = true) {m n : Nat} (hm : m < n) :
    ((s.startFresh n).steps (8 * m)).stepsAccesses 8 = byteAccessPair s.buf m := by
  obtain ⟨hpos, hnacc⟩ := invocation_whole_bytes s (Nat.le_of_lt hm)
  have hgen := invocation_gen s n (8 * m)
  rw [Nat.min_eq_left (by omega)] at hgen
  have hne : ((s.startFresh n).steps (8 * m)).pos ≠ ((s.startFresh n).steps (8 * m)).len := by
    rw [hpos, State.steps_len]
    exact Nat.ne_of_lt hm
  rw [State.byteAccesses hne, State.boundaryPair, State.appliedAddress_eq, invocation_read h, hpos, hnacc, hgen,
    if_neg (Nat.lt_irrefl m), byteAccessPair, ksByte_eq_accSteps m ((s.startFresh n).steps (8 * m)).acc]
  rfl

/-- The first `m` bytes are read and written once each, in ascending order. -/
theorem invocation_accesses {s : State} (h : s.buf.wf = true) {m n : Nat} (hm : m ≤ n) :
    (s.startFresh n).stepsAccesses (8 * m) = (List.range m).flatMap (byteAccessPair s.buf) := by
  induction m with
  | zero => rfl
  | succ m ih =>
    rw [Nat.mul_succ, State.stepsAccesses_add, ih (Nat.le_of_lt hm), invocation_byteAccesses h hm, List.range_succ,
      List.flatMap_append, List.flatMap_singleton]

/-- Any sequence that brings the invocation to DONE makes these accesses and no more. -/
theorem invocation_accesses_of_done {s : State} (h : s.buf.wf = true) {n k : Nat} (hk : 8 * n ≤ k) :
    (s.startFresh n).stepsAccesses k = (List.range n).flatMap (byteAccessPair s.buf) := by
  have hdone := (State.done_iff _).1 ((invocation_done_iff s n (8 * n)).2 (Nat.le_refl _))
  obtain ⟨d, rfl⟩ := Nat.exists_eq_add_of_le hk
  rw [State.stepsAccesses_add, State.stepsAccesses_of_done hdone, List.append_nil,
    invocation_accesses h (Nat.le_refl n)]

/-! ## Sequences of commands as invocations -/

/-- INIT and then commands that keep the invocation: a fresh start and a number of STEPs. -/
theorem execAll_invocation {is : List Instr} (h : ∀ i ∈ is, keepsInvocation i = true) (n : Nat) (s : State) :
    execAll (.init n :: is) s = .next ((s.startFresh n).steps ((is.map stepCount).sum)) := by
  rw [execAll_init, execAll_keeps h]

theorem accessesAll_invocation {is : List Instr} (h : ∀ i ∈ is, keepsInvocation i = true) (n : Nat) (s : State) :
    accessesAll (.init n :: is) s = (s.startFresh n).stepsAccesses ((is.map stepCount).sum) :=
  accessesAll_keeps h (s.startFresh n)

theorem repeated_byte_keeps (n : Nat) : ∀ i ∈ repeated n .byte, keepsInvocation i = true := by
  intro i hi
  rw [List.eq_of_mem_replicate hi]
  rfl

theorem repeated_byte_stepCount (n : Nat) : ((repeated n .byte).map stepCount).sum = 8 * n := by
  rw [repeated, List.map_replicate, List.sum_replicate, smul_eq_mul, Nat.mul_comm]
  rfl

/-- A sequence goes on from where its first part led. -/
theorem execAll_append_of_next {is : List Instr} {s t : State} (h : execAll is s = .next t) (js : List Instr) :
    execAll (is ++ js) s = execAll js t := by
  rw [execAll_append, h]

/-- `APPLY n` and then `APPLY m`. -/
theorem execAll_apply_apply (n m : Nat) (s : State) :
    execAll (applyCommands n ++ applyCommands m) s =
      .next ((((s.startFresh n).steps (8 * n)).startFresh m).steps (8 * m)) := by
  rw [execAll_append_of_next (execAll_apply n s), execAll_apply]

/-! ## The statements -/

/-- Settles O39: both sequences bring the invocation to DONE, and its accesses are then those of each byte in turn. -/
theorem invocationAccessesEachByteOnceInOrder : Obligations.InvocationAccessesEachByteOnceInOrder := by
  refine ⟨fun n is s t hwf his hexec hdone => ?_, fun n s hwf => ?_⟩
  · obtain rfl := Host.Outcome.next.inj ((execAll_invocation his n s).symm.trans hexec)
    rw [accessesAll_invocation his]
    exact invocation_accesses_of_done hwf ((invocation_done_iff s n _).1 hdone)
  · rw [applyCommands, accessesAll_invocation (repeated_byte_keeps n)]
    exact invocation_accesses_of_done hwf (repeated_byte_stepCount n).ge

/-- Settles O44: `APPLY n` is a fresh start and 8n STEPs, which pass every byte of the buffer. -/
theorem applyTransformsTheWholeBuffer : Obligations.ApplyTransformsTheWholeBuffer := by
  refine ⟨fun n => ⟨rfl, ?_⟩, fun n s hwf => ?_, fun s => ⟨s.startFresh 0, rfl, rfl⟩⟩
  · rw [applyCommands, repeated, List.length_cons, List.length_replicate]
  · obtain ⟨hpos, hnacc⟩ := invocation_whole_bytes s (Nat.le_refl n)
    have hgen := invocation_gen s n (8 * n)
    rw [Nat.min_self] at hgen
    exact ⟨_, execAll_apply n s, (invocation_done_iff s n _).2 (Nat.le_refl _), hpos, State.steps_len _ _, hnacc,
      hgen, apply_read hwf n, apply_bufferBytes hwf n⟩

/-- Settles O45: the transform takes itself back, on lists and in the block. -/
theorem applyTwiceRestoresTheBuffer : Obligations.ApplyTwiceRestoresTheBuffer := by
  refine ⟨fun b => ⟨xorFrom_length 0 b, applyBytes_applyBytes b⟩, fun n s hwf => ?_⟩
  exact ⟨_, execAll_apply_apply n n s, apply_passed_buf hwf n _ (invocation_whole_bytes s (Nat.le_refl n)).1⟩

/-- Settles O46: the mixture is at least 8n STEPs, and those behind DONE are gated. -/
theorem mixedCommandsEqualApply : Obligations.MixedCommandsEqualApply := by
  intro n is s t his hexec hdone
  obtain rfl := Host.Outcome.next.inj ((execAll_invocation his n s).symm.trans hexec)
  rw [execAll_apply, invocation_steps_of_le s ((invocation_done_iff s n _).1 hdone)]

/-- Settles O47, by the count of the bit-steps done. -/
theorem doneAfterExactlyEightNSteps : Obligations.DoneAfterExactlyEightNSteps := by
  intro n k s
  refine ⟨(s.startFresh n).steps k, ?_, invocation_done_iff s n k, invocation_gen s n k, fun h => ?_⟩
  · rw [execAll_init, execAll_repeated_step]
  · rw [execAll_init, execAll_repeated_step, invocation_steps_of_le s h]

/-- Settles O48: the second `APPLY` takes the keystream off the first `m` bytes only. -/
theorem prefixDescrambles : Obligations.PrefixDescrambles := by
  intro m n s hwf hm
  have hpos := (invocation_whole_bytes s (Nat.le_refl n)).1
  refine ⟨_, execAll_apply_apply n m s, fun p => ?_⟩
  rw [apply_invocation_read hwf n _ (hm.trans_eq hpos.symm), hpos]

/-- Settles O50: each byte of the payload meets the keystream byte of its own position in both buffers. -/
theorem payloadBehindAPrefix : Obligations.PayloadBehindAPrefix := by
  intro h m s s' hwf hwf' heq
  refine ⟨_, _, execAll_apply _ s, execAll_apply _ s', fun j hj => ?_⟩
  have hlt : h + j < h + m := Nat.add_lt_add_left hj h
  rw [apply_read hwf, apply_read hwf', if_pos hlt, if_pos hlt, heq j hj]
  exact ⟨rfl, rfl⟩

/-- Settles O51: the interrupted invocation has passed the bytes below POS, which `APPLY POS` passes again. -/
theorem restartIsRecoveredByApplyOverThePrefix : Obligations.RestartIsRecoveredByApplyOverThePrefix := by
  intro n m is s u hwf his hexec
  obtain rfl := Host.Outcome.next.inj ((execAll_invocation his n s).symm.trans hexec)
  have hbuf := apply_passed_buf hwf n (is.map stepCount).sum rfl
  refine ⟨_, ?_, hbuf⟩
  rw [execAll_init, execAll_apply, State.startFresh_startFresh]

end Sys2Proof.Machine
